-- ==== Sys2Proof/Word.lean ====
section
/-! DEFINITION. The widths of the SPFM core's words, registers and indexes (spec/00_scope.md R7, R8; spec/30_encoding.md R71).
Arithmetic on them stands in Machine/Operands.lean. -/

namespace Sys2Proof

/-- An 8-bit register value (AMPBASE, AMP, KEY), an index into the sine ROM, or one sine entry's bit pattern (R8). -/
abbrev U8 := BitVec 8

/-- A 16-bit register value, the data field of a command, or the read-data port (R8, R53). -/
abbrev U16 := BitVec 16

/-- A command word: CMD_W = 32 bits (R8, R71). -/
abbrev CmdWord := BitVec 32

/-- The R field of a command: a register number of VREG or GREG, 0 to 31, whether or not a register has it (R50, R72). -/
abbrev RegNum := BitVec 5

/-- A voice index: NV = 4 voices, 0 to 3 (R7, R20). -/
abbrev VoiceIx := Fin 4

end Sys2Proof
end

