-- ==== Sys2Proof/Syntax.lean ====
section
/-! DEFINITION. The ten commands of spec/opcode_table.json (spec/30_encoding.md R73), one constructor each, the names of the five
command errors (spec/60_exceptions.md R212), and the names of the registers (spec/20_memory.md R51, R52). -/

namespace Sys2Proof

/-- One command. Operands are typed at the width of their field (R71, R72): every value a field can hold is a term, and no other. -/
inductive Instr where
  /-- NOP: nothing (R90). -/
  | nop
  /-- WR v, r, imm: write one voice register (R91). -/
  | wr (v : VoiceIx) (r : RegNum) (imm : U16)
  /-- RD v, r: read one voice register (R92). -/
  | rd (v : VoiceIx) (r : RegNum)
  /-- RDG g: read one global register (R94). -/
  | rdg (g : RegNum)
  /-- KON v, key: claim voice v for a key and start its envelope (R100). -/
  | kon (v : VoiceIx) (key : U8)
  /-- KOFF key: release every voice that holds the key (R102). -/
  | koff (key : U8)
  /-- ETICK: one control tick of every envelope and age counter (R110). -/
  | etick
  /-- FMDK: one decay step of every FM exponential value (R130). -/
  | fmdk
  /-- REFR v: recompute the two latches of voice v (R135). -/
  | refr (v : VoiceIx)
  /-- SYNC: wait for a sample boundary, consume it, produce one sample (R150). -/
  | sync
  deriving DecidableEq, Repr

/-- The command errors of R212, by their names there. -/
inductive CmdError where
  /-- Code 1: the operation code is reserved (R75). -/
  | illegalOp
  /-- Code 2: a must-be-zero field is not zero (R74, R75). -/
  | reservedField
  /-- Code 3: no register has this number (R60). -/
  | badReg
  /-- Code 4: the register is read-only for the host (R51). -/
  | roWrite
  /-- Code 5: the value is outside the register's legal range (R51). -/
  | badValue
  deriving DecidableEq, Repr

/-- The nineteen registers of a voice bank, by the names of R51. -/
inductive VReg where
  | phase | inc | fmphase | fminc | fma0 | fmda | fmexp | fmdec | stage | env
  | atk | dcy | sus | rls | ampbase | key | age | amp | fmamp
  deriving DecidableEq, Repr

/-- The two global registers, by the names of R52. -/
inductive GReg where
  | status | duty
  deriving DecidableEq, Repr

end Sys2Proof
end

