-- ==== Sys2Proof/WellFormed.lean ====
section
/-! DEFINITION. The one command format (spec/30_encoding.md R71) as a record of its five fields, and the checks a word's fields pass
when it is a command: the operation code is defined (R76), Z is zero, and every field the command does not use is zero (R74).
The operands of `Instr` are typed at their fields' widths, so every term of it is well formed; a word's fields need not be. -/

namespace Sys2Proof

/-- The fields of a command word, from bit 31 down to bit 0 (R71). -/
structure Fields where
  op  : BitVec 4
  v   : BitVec 2
  z   : BitVec 5
  r   : BitVec 5
  imm : BitVec 16
  deriving DecidableEq, Repr

/-- The fields of a word (R71): OP 31:28, V 27:26, Z 25:21, R 20:16, IMM 15:0. -/
def Fields.ofWord (w : CmdWord) : Fields where
  op  := w.extractLsb' 28 4
  v   := w.extractLsb' 26 2
  z   := w.extractLsb' 21 5
  r   := w.extractLsb' 16 5
  imm := w.extractLsb' 0 16

/-- The operation codes in use are 0 to 9 (R73, R76). -/
def Fields.opDefined (f : Fields) : Bool := f.op.toNat ≤ 9

/-- Z must be zero in every command (R71). -/
def Fields.zIsZero (f : Fields) : Bool := f.z == 0

/-- V is used by WR, RD, KON and REFR and must be zero elsewhere (R74). -/
def Fields.vAllowed (f : Fields) : Bool := f.op == 1 || f.op == 2 || f.op == 4 || f.op == 8 || f.v == 0

/-- R is used by WR, RD and RDG and must be zero elsewhere (R74). -/
def Fields.rAllowed (f : Fields) : Bool := f.op == 1 || f.op == 2 || f.op == 3 || f.r == 0

/-- IMM is used whole by WR, in its low eight bits by KON and KOFF, and must be zero elsewhere (R72, R74). -/
def Fields.immAllowed (f : Fields) : Bool :=
  f.op == 1 || ((f.op == 4 || f.op == 5) && f.imm.extractLsb' 8 8 == 0) || f.imm == 0

/-- The fields are those of a command: R74 and R76 together. -/
def Fields.wellFormed (f : Fields) : Bool :=
  f.opDefined && f.zIsZero && f.vAllowed && f.rAllowed && f.immAllowed

/-- The fields the assembler fills in for a command (R71, R72, R73). -/
def Instr.fields : Instr → Fields
  | .nop        => ⟨0, 0, 0, 0, 0⟩
  | .wr v r imm => ⟨1, .ofFin v, 0, r, imm⟩
  | .rd v r     => ⟨2, .ofFin v, 0, r, 0⟩
  | .rdg g      => ⟨3, 0, 0, g, 0⟩
  | .kon v key  => ⟨4, .ofFin v, 0, 0, key.setWidth 16⟩
  | .koff key   => ⟨5, 0, 0, 0, key.setWidth 16⟩
  | .etick      => ⟨6, 0, 0, 0, 0⟩
  | .fmdk       => ⟨7, 0, 0, 0, 0⟩
  | .refr v     => ⟨8, .ofFin v, 0, 0, 0⟩
  | .sync       => ⟨9, 0, 0, 0, 0⟩

/-- A command is well formed when its fields are. -/
def Instr.wellFormed (i : Instr) : Bool := i.fields.wellFormed

end Sys2Proof
end

