-- ==== Sys2Proof/Decode.lean ====
section
/-! DEFINITION. Decoding a command word, total, and the encoder (spec/30_encoding.md R71 to R76), both from the table of R73;
the little-endian byte order of a word that a transport moves as bytes (spec/20_memory.md R59). -/

namespace Sys2Proof

/-- What a word decodes to (R75): a command, or the error it is executed as. -/
inductive Decoded where
  | command (i : Instr)
  | illegal (code : CmdError)
  deriving DecidableEq, Repr

/-- The command selected by an operation code with the word's operand fields; `none` for the codes 0xA to 0xF (R73, R76). -/
def commandOf (op : BitVec 4) (v : VoiceIx) (r : RegNum) (imm : U16) : Option Instr :=
  match op.toNat with
  | 0 => some .nop
  | 1 => some (.wr v r imm)
  | 2 => some (.rd v r)
  | 3 => some (.rdg r)
  | 4 => some (.kon v (imm.extractLsb' 0 8))
  | 5 => some (.koff (imm.extractLsb' 0 8))
  | 6 => some .etick
  | 7 => some .fmdk
  | 8 => some (.refr v)
  | 9 => some .sync
  | _ => none

/-- The `match` column of R73. -/
def matchOf : Instr → CmdWord
  | .nop      => 0x00000000#32
  | .wr _ _ _ => 0x10000000#32
  | .rd _ _   => 0x20000000#32
  | .rdg _    => 0x30000000#32
  | .kon _ _  => 0x40000000#32
  | .koff _   => 0x50000000#32
  | .etick    => 0x60000000#32
  | .fmdk     => 0x70000000#32
  | .refr _   => 0x80000000#32
  | .sync     => 0x90000000#32

/-- The `mask` column of R73. -/
def maskOf : Instr → CmdWord
  | .nop      => 0xFFFFFFFF#32
  | .wr _ _ _ => 0xF3E00000#32
  | .rd _ _   => 0xF3E0FFFF#32
  | .rdg _    => 0xFFE0FFFF#32
  | .kon _ _  => 0xF3FFFF00#32
  | .koff _   => 0xFFFFFF00#32
  | .etick    => 0xFFFFFFFF#32
  | .fmdk     => 0xFFFFFFFF#32
  | .refr _   => 0xF3FFFFFF#32
  | .sync     => 0xFFFFFFFF#32

/-- R75, in its order: the operation code first (code 1), then the must-be-zero bits of the mask (code 2). -/
def decode (w : CmdWord) : Decoded :=
  match commandOf (w.extractLsb' 28 4) (w.extractLsb' 26 2).toFin (w.extractLsb' 16 5) (w.extractLsb' 0 16) with
  | none   => .illegal .illegalOp
  | some i => if w &&& maskOf i = matchOf i then .command i else .illegal .reservedField

/-- The word of a command: the fixed bits of its row's pattern with V at 27:26, R at 20:16 and IMM at 15:0 (R71, R73). -/
def encode : Instr → CmdWord
  | .nop        => 0#4 ++ 0#2 ++ 0#5 ++ 0#5 ++ 0#16
  | .wr v r imm => 1#4 ++ BitVec.ofFin (w := 2) v ++ 0#5 ++ r ++ imm
  | .rd v r     => 2#4 ++ BitVec.ofFin (w := 2) v ++ 0#5 ++ r ++ 0#16
  | .rdg g      => 3#4 ++ 0#2 ++ 0#5 ++ g ++ 0#16
  | .kon v key  => 4#4 ++ BitVec.ofFin (w := 2) v ++ 0#5 ++ 0#5 ++ 0#8 ++ key
  | .koff key   => 5#4 ++ 0#2 ++ 0#5 ++ 0#5 ++ 0#8 ++ key
  | .etick      => 6#4 ++ 0#2 ++ 0#5 ++ 0#5 ++ 0#16
  | .fmdk       => 7#4 ++ 0#2 ++ 0#5 ++ 0#5 ++ 0#16
  | .refr v     => 8#4 ++ BitVec.ofFin (w := 2) v ++ 0#5 ++ 0#5 ++ 0#16
  | .sync       => 9#4 ++ 0#2 ++ 0#5 ++ 0#5 ++ 0#16

/-- The four bytes of a command word, lowest address first (R59). -/
def bytesOfWord (w : CmdWord) : List U8 :=
  [w.extractLsb' 0 8, w.extractLsb' 8 8, w.extractLsb' 16 8, w.extractLsb' 24 8]

/-- The command word four bytes hold, lowest address first (R59). -/
def wordOfBytes (b0 b1 b2 b3 : U8) : CmdWord := b3 ++ b2 ++ b1 ++ b0

/-- The decoder on a word numbered as spec/opcode_table.json numbers it: one 32-bit word, bit 0 its least significant (R10, R71). -/
def decodeTableWord (nbits w : Nat) : Option Instr :=
  match decode (BitVec.ofNat 32 (w % 2 ^ nbits)) with
  | .command i => some i
  | .illegal _ => none

end Sys2Proof
end

