-- ==== Sys2Proof/Config.lean ====
section
/-! DEFINITION. The open parameters of the block (spec/00_scope.md R9) as one record, and the default the spec's vectors use
(spec/20_memory.md R57). A configuration is fixed when the block is built; no command changes it (spec/70_reset_and_hazards.md R242). -/

namespace Sys2Proof

/-- The configuration record of R9: the sine table, the mixer's width, the output divisor and the midpoint.
T_SAMPLE is not a field: the model has no time (R251). -/
structure Config where
  /-- SINE: the sine ROM, entry i at place i, each the bit pattern of an s8 (R56). -/
  sine        : List U8
  /-- ACC_W: the bits of the mixer accumulator (R158). -/
  accW        : Nat
  /-- OUT_DIV: the divisor of the mixed sum (R160). -/
  outDiv      : Nat
  /-- OUT_MID: the midpoint, below 2^DUTY_W (R160). -/
  outMid      : U16
  sine_length : sine.length = 256
  accW_ge     : 16 ≤ accW
  outDiv_pos  : 0 < outDiv
  deriving DecidableEq, Repr

/-- Rows 0 to 3 of the table of R57, `SINE[0]` to `SINE[63]`. -/
def sineRows0 : List Int :=
  [   0,    3,    6,    9,   12,   16,   19,   22,   25,   28,   31,   34,   37,   40,   43,   46] ++
  [  49,   51,   54,   57,   60,   63,   65,   68,   71,   73,   76,   78,   81,   83,   85,   88] ++
  [  90,   92,   94,   96,   98,  100,  102,  104,  106,  107,  109,  111,  112,  113,  115,  116] ++
  [ 117,  118,  120,  121,  122,  122,  123,  124,  125,  125,  126,  126,  126,  127,  127,  127]

/-- Rows 4 to 7 of the table of R57, `SINE[64]` to `SINE[127]`. -/
def sineRows4 : List Int :=
  [ 127,  127,  127,  127,  126,  126,  126,  125,  125,  124,  123,  122,  122,  121,  120,  118] ++
  [ 117,  116,  115,  113,  112,  111,  109,  107,  106,  104,  102,  100,   98,   96,   94,   92] ++
  [  90,   88,   85,   83,   81,   78,   76,   73,   71,   68,   65,   63,   60,   57,   54,   51] ++
  [  49,   46,   43,   40,   37,   34,   31,   28,   25,   22,   19,   16,   12,    9,    6,    3]

/-- Rows 8 to 11 of the table of R57, `SINE[128]` to `SINE[191]`. -/
def sineRows8 : List Int :=
  [   0,   -3,   -6,   -9,  -12,  -16,  -19,  -22,  -25,  -28,  -31,  -34,  -37,  -40,  -43,  -46] ++
  [ -49,  -51,  -54,  -57,  -60,  -63,  -65,  -68,  -71,  -73,  -76,  -78,  -81,  -83,  -85,  -88] ++
  [ -90,  -92,  -94,  -96,  -98, -100, -102, -104, -106, -107, -109, -111, -112, -113, -115, -116] ++
  [-117, -118, -120, -121, -122, -122, -123, -124, -125, -125, -126, -126, -126, -127, -127, -127]

/-- Rows 12 to 15 of the table of R57, `SINE[192]` to `SINE[255]`. -/
def sineRows12 : List Int :=
  [-127, -127, -127, -127, -126, -126, -126, -125, -125, -124, -123, -122, -122, -121, -120, -118] ++
  [-117, -116, -115, -113, -112, -111, -109, -107, -106, -104, -102, -100,  -98,  -96,  -94,  -92] ++
  [ -90,  -88,  -85,  -83,  -81,  -78,  -76,  -73,  -71,  -68,  -65,  -63,  -60,  -57,  -54,  -51] ++
  [ -49,  -46,  -43,  -40,  -37,  -34,  -31,  -28,  -25,  -22,  -19,  -16,  -12,   -9,   -6,   -3]

/-- The default sine table of R57 as numbers. -/
def defaultSine : List Int := sineRows0 ++ sineRows4 ++ sineRows8 ++ sineRows12

/-- The default configuration of R9: the table of R57, ACC_W = 32, OUT_DIV = 128, OUT_MID = 256. -/
def Config.default : Config where
  sine        := defaultSine.map (BitVec.ofInt 8)
  accW        := 32
  outDiv      := 128
  outMid      := 256
  sine_length := by decide +kernel
  accW_ge     := by decide
  outDiv_pos  := by decide

end Sys2Proof
end

