-- ==== Sys2Proof/Machine/State.lean ====
section
/-! DEFINITION. The state of the machine as plain data: the block's registers (spec/10_state.md), its configuration, and the
streams that join it to its three other agents (spec/00_scope.md R6, R15; spec/30_encoding.md R70); the reset state (R48). -/

namespace Sys2Proof.Machine

/-- The five envelope stages (R29). The codes 5 to 7 are never stored, so the register is an enumeration
(spec/93_implementation_defined.md U10). -/
inductive Stage where
  | idle | attack | decay | sustain | release
  deriving DecidableEq, Repr

/-- One voice bank: the nineteen registers of R21 to R40, in the order of their numbers (R51). -/
structure Voice where
  phase   : U16
  inc     : U16
  fmphase : U16
  fminc   : U16
  fma0    : U16
  /-- Holds a signed s16 in two's complement (R26). -/
  fmda    : U16
  fmexp   : U16
  fmdec   : U16
  stage   : Stage
  env     : U16
  atk     : U16
  dcy     : U16
  sus     : U16
  rls     : U16
  ampbase : U8
  key     : U8
  age     : U16
  /-- A latch, written by REFR only (R39). -/
  amp     : U8
  /-- A latch, written by REFR only (R40). -/
  fmamp   : U16
  deriving DecidableEq, Repr

/-- The four voice banks (R20). -/
structure Voices where
  v0 : Voice
  v1 : Voice
  v2 : Voice
  v3 : Voice
  deriving DecidableEq, Repr

/-- How the execution of a command ends (R15). -/
inductive CmdOutcome where
  /-- The command finished. -/
  | done
  /-- An RD or RDG finished and delivers a value on the read-data port (R93). -/
  | respond (val : U16)
  /-- The command was refused (R211). -/
  | error (code : CmdError)
  /-- A SYNC waits for a sample boundary and stays at the head of the stream (R151); no command finishes with it. -/
  | hold
  deriving DecidableEq, Repr

/-- Which agent acts in a step: the engine on the presented command, the sample timer (a sample-boundary event, R216), or the
platform (a reset event, R240). -/
inductive Turn where
  | engine | boundary | reset
  deriving DecidableEq, Repr

/-- The machine stops with a fault: it never does. No rule of the spec stops the block, every command sequence has a defined
result (R207, R210), and a refused command is recorded and the stream goes on (R211); so the type has no constructor. -/
inductive Fault where
  deriving DecidableEq, Repr

/-- Why a step has no meaning. -/
inductive Refusal where
  /-- Raised by an arm of `exec` for a command that has no meaning yet. No arm raises it. Safe: nothing is claimed of the command. -/
  | notModelled (mnemonic : String)
  deriving DecidableEq, Repr

/-- The state. `cfg` is the configuration the block is built with (R9), which no step changes; `voices`, `duty`, `sdue`, `err` and
`errcode` are all the registers the block has (R20, R41, R42), and `held` its other hidden state (R46); `cmds`, `schedule` and `outcomes` are the model's own, the streams
of R15 and R70 that join the block to the host, the timer and the platform. -/
structure State where
  cfg      : Config
  voices   : Voices
  /-- Global register 1, DUTY (R41). -/
  duty     : U16
  /-- STATUS bit 0: a sample boundary is pending (R42, R217). -/
  sdue     : Bool
  /-- STATUS bit 1: a command was refused since reset (R42). -/
  err      : Bool
  /-- STATUS bits 7:4: the code of the first refused command since reset, 0 if none (R42). -/
  errcode  : BitVec 4
  /-- The presented command is a SYNC the engine has begun and that waits for a boundary (R46 b). -/
  held     : Bool
  /-- The host's command stream, the presented command first; empty when `cmd_valid` is low (R70). -/
  cmds     : List CmdWord
  /-- Whose turn the coming steps are; the engine's where it says nothing (R63, R219). -/
  schedule : List Turn
  /-- The outcomes of the finished commands so far, oldest first (R15, R93). -/
  outcomes : List CmdOutcome
  deriving DecidableEq, Repr

/-- A voice bank after reset (R48): every register 0, the stage Idle, KEY 0xFF. -/
def Voice.reset : Voice where
  phase   := 0
  inc     := 0
  fmphase := 0
  fminc   := 0
  fma0    := 0
  fmda    := 0
  fmexp   := 0
  fmdec   := 0
  stage   := .idle
  env     := 0
  atk     := 0
  dcy     := 0
  sus     := 0
  rls     := 0
  ampbase := 0
  key     := 0xFF
  age     := 0
  amp     := 0
  fmamp   := 0

/-- The four voice banks after reset (R48). -/
def Voices.reset : Voices := ⟨Voice.reset, Voice.reset, Voice.reset, Voice.reset⟩

/-- The block of a given configuration right after reset (R48), with nothing presented, scheduled or delivered yet. -/
def State.resetOf (cfg : Config) : State where
  cfg      := cfg
  voices   := Voices.reset
  duty     := cfg.outMid
  sdue     := false
  err      := false
  errcode  := 0
  held     := false
  cmds     := []
  schedule := []
  outcomes := []

/-- The machine right after reset: the default configuration of R9, every register as R48 gives it. -/
def State.reset : State := State.resetOf Config.default

end Sys2Proof.Machine
end

