-- ==== Sys2Proof/Machine/Operands.lean ====
section
/-! DEFINITION. The number notation of spec/00_scope.md R10 to R12 and R19 (slices, sign extension, wraps, shifts, division), the
register maps of spec/20_memory.md R51 and R52 from numbers to names, and reading and writing one register of a bank (R53, R54). -/

namespace Sys2Proof.Machine

/-! ### Numbers (R10 to R12) -/

/-- `x[15:8]`, the high byte (R10). -/
def hiByte (x : U16) : U8 := x.extractLsb' 8 8

/-- `x[7:0]`, the low byte (R10). -/
def loByte (x : U16) : U8 := x.extractLsb' 0 8

/-- The number an unsigned value stands for (R11). -/
def unsigned {n : Nat} (x : BitVec n) : Int := x.toNat

/-- `sext(x)`: the number of a two's-complement pattern (R11). -/
def sext {n : Nat} (x : BitVec n) : Int := x.toInt

/-- `wrapu_N(z)`: the N-bit unsigned value congruent to z (R11). -/
def wrapu (n : Nat) (z : Int) : BitVec n := BitVec.ofInt n z

/-- `wraps_N(z)`: the signed N-bit number congruent to z (R11). -/
def wraps (n : Nat) (z : Int) : Int := Int.bmod z (2 ^ n)

/-- `z >> k`, rounding toward minus infinity (R12). -/
def shiftFloor (z : Int) (k : Nat) : Int := z / 2 ^ k

/-- `tdiv(a, b)`, rounding toward zero (R12). -/
def tdiv (a : Int) (b : Nat) : Int := Int.tdiv a b

/-! ### The sine ROM (R56) -/

/-- `SINE[i]`: the signed entry at an 8-bit index (R13, R56). -/
def sineAt (cfg : Config) (i : U8) : Int :=
  sext (cfg.sine[i.toNat]'(by rw [cfg.sine_length]; exact i.isLt))

/-! ### Stage codes (R29) -/

/-- The code of a stage (R29). -/
def stageCode : Stage → BitVec 3
  | .idle    => 0
  | .attack  => 1
  | .decay   => 2
  | .sustain => 3
  | .release => 4

/-- The stage of a code; `none` for the reserved codes 5, 6 and 7 (R29). -/
def stageOfCode (c : BitVec 3) : Option Stage :=
  match c.toNat with
  | 0 => some .idle
  | 1 => some .attack
  | 2 => some .decay
  | 3 => some .sustain
  | 4 => some .release
  | _ => none

/-! ### Register numbers (R51, R52, R60) -/

/-- The number of a voice register (R51). -/
def vregNumber : VReg → RegNum
  | .phase   => 0x00
  | .inc     => 0x01
  | .fmphase => 0x02
  | .fminc   => 0x03
  | .fma0    => 0x04
  | .fmda    => 0x05
  | .fmexp   => 0x06
  | .fmdec   => 0x07
  | .stage   => 0x08
  | .env     => 0x09
  | .atk     => 0x0A
  | .dcy     => 0x0B
  | .sus     => 0x0C
  | .rls     => 0x0D
  | .ampbase => 0x0E
  | .key     => 0x0F
  | .age     => 0x10
  | .amp     => 0x11
  | .fmamp   => 0x12

/-- The voice register of a number; `none` for the reserved numbers 0x13 to 0x1F (R51, R60). -/
def vregOf (r : RegNum) : Option VReg :=
  match r.toNat with
  | 0x00 => some .phase
  | 0x01 => some .inc
  | 0x02 => some .fmphase
  | 0x03 => some .fminc
  | 0x04 => some .fma0
  | 0x05 => some .fmda
  | 0x06 => some .fmexp
  | 0x07 => some .fmdec
  | 0x08 => some .stage
  | 0x09 => some .env
  | 0x0A => some .atk
  | 0x0B => some .dcy
  | 0x0C => some .sus
  | 0x0D => some .rls
  | 0x0E => some .ampbase
  | 0x0F => some .key
  | 0x10 => some .age
  | 0x11 => some .amp
  | 0x12 => some .fmamp
  | _    => none

/-- The number of a global register (R52). -/
def gregNumber : GReg → RegNum
  | .status => 0
  | .duty   => 1

/-- The global register of a number; `none` for the reserved numbers 2 to 31 (R52, R60). -/
def gregOf (g : RegNum) : Option GReg :=
  match g.toNat with
  | 0 => some .status
  | 1 => some .duty
  | _ => none

/-- The host may not write the two latches (R51). -/
def vregReadOnly : VReg → Bool
  | .amp | .fmamp => true
  | _             => false

/-- `imm` is in the register's `legal IMM` range (R51); the read-only registers have none. -/
def vregLegalImm (r : VReg) (imm : U16) : Bool :=
  match r with
  | .stage          => imm.toNat ≤ 4
  | .ampbase | .key => imm.toNat ≤ 255
  | .amp | .fmamp   => false
  | _               => true

/-! ### Reading and writing one register of a bank (R53, R54) -/

/-- The stored bits of a register, zero-extended to 16 (R53). -/
def Voice.readReg (x : Voice) : VReg → U16
  | .phase   => x.phase
  | .inc     => x.inc
  | .fmphase => x.fmphase
  | .fminc   => x.fminc
  | .fma0    => x.fma0
  | .fmda    => x.fmda
  | .fmexp   => x.fmexp
  | .fmdec   => x.fmdec
  | .stage   => (stageCode x.stage).setWidth 16
  | .env     => x.env
  | .atk     => x.atk
  | .dcy     => x.dcy
  | .sus     => x.sus
  | .rls     => x.rls
  | .ampbase => x.ampbase.setWidth 16
  | .key     => x.key.setWidth 16
  | .age     => x.age
  | .amp     => x.amp.setWidth 16
  | .fmamp   => x.fmamp

/-- `imm` stored in a register: all of it, the low eight bits of it for a u8 register, the stage of its low three bits for STAGE
(R54). Called only for a writable register and a legal value; a read-only register keeps its value, and so does STAGE on a
reserved code. -/
def Voice.writeReg (x : Voice) (r : VReg) (imm : U16) : Voice :=
  match r with
  | .phase   => { x with phase := imm }
  | .inc     => { x with inc := imm }
  | .fmphase => { x with fmphase := imm }
  | .fminc   => { x with fminc := imm }
  | .fma0    => { x with fma0 := imm }
  | .fmda    => { x with fmda := imm }
  | .fmexp   => { x with fmexp := imm }
  | .fmdec   => { x with fmdec := imm }
  | .stage   => { x with stage := (stageOfCode (imm.extractLsb' 0 3)).getD x.stage }
  | .env     => { x with env := imm }
  | .atk     => { x with atk := imm }
  | .dcy     => { x with dcy := imm }
  | .sus     => { x with sus := imm }
  | .rls     => { x with rls := imm }
  | .ampbase => { x with ampbase := loByte imm }
  | .key     => { x with key := loByte imm }
  | .age     => { x with age := imm }
  | .amp     => x
  | .fmamp   => x

/-- Bank v (R20). -/
def Voices.get (b : Voices) (v : VoiceIx) : Voice :=
  match v with
  | 0 => b.v0
  | 1 => b.v1
  | 2 => b.v2
  | 3 => b.v3

/-- The banks with bank v replaced; the banks do not alias each other (R20). -/
def Voices.set (b : Voices) (v : VoiceIx) (x : Voice) : Voices :=
  match v with
  | 0 => { b with v0 := x }
  | 1 => { b with v1 := x }
  | 2 => { b with v2 := x }
  | 3 => { b with v3 := x }

/-- One and the same operation on each bank: the `for v in 0..3` of a command whose iterations are independent (R118, R164). -/
def Voices.map (f : Voice → Voice) (b : Voices) : Voices := ⟨f b.v0, f b.v1, f b.v2, f b.v3⟩

/-- `idle(v)` (R36). -/
def Voice.isIdle (x : Voice) : Bool := x.stage == .idle && x.env == 0

end Sys2Proof.Machine
end

