-- ==== Sys2Proof/Machine/Flags.lean ====
section
/-! DEFINITION. The flag-like state: the STATUS word and its fields SDUE, ERR and ERRCODE (spec/10_state.md R42, R43), and the codes of
the command errors (spec/60_exceptions.md R212). No arithmetic sets a flag (R43). -/

namespace Sys2Proof.Machine

/-- The code recorded in ERRCODE for each error (R212). -/
def errorCode : CmdError → BitVec 4
  | .illegalOp     => 1
  | .reservedField => 2
  | .badReg        => 3
  | .roWrite       => 4
  | .badValue      => 5

/-- The STATUS word, `{0x00, ERRCODE[3:0], 0b00, ERR, SDUE}` (R42, R94). -/
def State.status (s : State) : U16 :=
  0#8 ++ s.errcode ++ 0#2 ++ BitVec.ofBool s.err ++ BitVec.ofBool s.sdue

/-- The error record of `raise CmdError(code)`: the first code since reset is kept (R211). -/
def State.recordError (s : State) (c : CmdError) : State :=
  if s.err then s else { s with err := true, errcode := errorCode c }

end Sys2Proof.Machine
end

