-- ==== Sys2Proof/Machine/Ops.lean ====
section
/-! DEFINITION. The operations the commands share: reading and writing the register spaces (spec/20_memory.md R50 to R55), ending a
command (spec/00_scope.md R15), `raise CmdError` (spec/60_exceptions.md R211, R220, the block's only exception, which has no return,
R221), and the two events (R216; spec/70_reset_and_hazards.md R240). -/

namespace Sys2Proof.Machine

/-! ### Register spaces -/

/-- Bank v. -/
def State.voice (s : State) (v : VoiceIx) : Voice := s.voices.get v

/-- The state with bank v replaced. -/
def State.setVoice (s : State) (v : VoiceIx) (x : Voice) : State := { s with voices := s.voices.set v x }

/-- The state with one operation done on each bank. -/
def State.mapVoices (s : State) (f : Voice → Voice) : State := { s with voices := s.voices.map f }

/-- `NAME[v]`, the register of a name, as the host sees it (R13, R53). -/
def State.reg (s : State) (v : VoiceIx) (r : VReg) : U16 := (s.voice v).readReg r

/-- `MemRead((VREG, v, r), 16)`; `none` where no register has the number (R14, R53, R60). -/
def State.readVreg (s : State) (v : VoiceIx) (r : RegNum) : Option U16 :=
  (vregOf r).map (s.reg v)

/-- `MemRead((GREG, g), 16)`; `none` where no register has the number (R14, R53, R60). -/
def State.readGreg (s : State) (g : RegNum) : Option U16 :=
  (gregOf g).map fun
    | .status => s.status
    | .duty   => s.duty

/-- `MemWrite((VREG, v, r), 16, imm)` for a register r that the host may write and a value in its range (R54). -/
def State.writeVreg (s : State) (v : VoiceIx) (r : VReg) (imm : U16) : State :=
  s.setVoice v ((s.voice v).writeReg r imm)

/-! ### Ending a command -/

/-- The presented command leaves the stream and its outcome is delivered, so that the next command can start (R15, R44, R93). -/
def State.finish (s : State) (o : CmdOutcome) : State :=
  { s with cmds := s.cmds.tail, outcomes := s.outcomes ++ [o], held := false }

/-- The presented command is a SYNC that waits: it stays presented, and no register changes (R46, R151). -/
def State.hold (s : State) : State := { s with held := true }

/-- `raise CmdError(c)`: nothing but the error record changes, and the stream goes on with the next command (R211, R220). -/
def State.raiseCmdError (s : State) (c : CmdError) : State := (s.recordError c).finish (.error c)

/-- The end of a command that was executed up to the state `s`: a held SYNC stays at the head of the stream and changes no register,
any other outcome finishes the command (R15). -/
def State.conclude (s : State) (o : CmdOutcome) : Host.Outcome State Fault Refusal :=
  match o with
  | .done        => .next (s.finish .done)
  | .respond val => .next (s.finish (.respond val))
  | .error c     => .next (s.raiseCmdError c)
  | .hold        => .next s.hold

/-- The values delivered on the read-data port so far, oldest first: one for each RD or RDG that finished `done` (R93). -/
def State.responses (s : State) : List U16 :=
  s.outcomes.filterMap fun
    | .respond val => some val
    | _            => none

/-! ### Events -/

/-- A sample-boundary event: `SDUE <- 1`, nothing else; lost where SDUE is 1 already (R216, R218). -/
def State.boundary (s : State) : State := { s with sdue := true }

/-- A reset event: every register takes its reset value, a pending boundary is forgotten, and a held SYNC is dropped, whether or not a
boundary has come for it meanwhile; a command the engine has not begun is not in progress and stays presented (R15, R48, R240). The configuration stays (R242), and so do what the host has yet to present, what the schedule holds and what was delivered. -/
def State.resetEvent (s : State) : State :=
  { State.resetOf s.cfg with
    cmds     := if s.held then s.cmds.tail else s.cmds
    schedule := s.schedule
    outcomes := s.outcomes }

end Sys2Proof.Machine
end

