-- ==== Sys2Proof/Machine/Access.lean ====
section
/-! DEFINITION. The register access commands NOP, WR, RD and RDG (spec/40_register_access.md). -/

namespace Sys2Proof.Machine

/-- NOP: nothing (R90). -/
def execNop (s : State) : Host.Outcome State Fault Refusal := s.conclude .done

/-- The refusal of WR r, imm, by the checks of R91 in their order; `none` where the write is accepted. -/
def wrRefusal (r : RegNum) (imm : U16) : Option CmdError :=
  if r.toNat > 0x12 then some .badReg
  else if r.toNat = 0x11 ∨ r.toNat = 0x12 then some .roWrite
  else if r.toNat = 0x08 ∧ imm.toNat > 4 then some .badValue
  else if (r.toNat = 0x0E ∨ r.toNat = 0x0F) ∧ imm.toNat > 255 then some .badValue
  else none

/-- WR v, r, imm: write one voice register, or be refused (R91). -/
def execWr (v : VoiceIx) (r : RegNum) (imm : U16) (s : State) : Host.Outcome State Fault Refusal :=
  match wrRefusal r imm with
  | some c => s.conclude (.error c)
  | none   =>
    match vregOf r with
    | some reg => (s.writeVreg v reg imm).conclude .done
    | none     => s.conclude (.error .badReg)

/-- RD v, r: respond with one voice register, or be refused (R92). -/
def execRd (v : VoiceIx) (r : RegNum) (s : State) : Host.Outcome State Fault Refusal :=
  match s.readVreg v r with
  | some val => s.conclude (.respond val)
  | none     => s.conclude (.error .badReg)

/-- RDG g: respond with one global register, or be refused (R94). -/
def execRdg (g : RegNum) (s : State) : Host.Outcome State Fault Refusal :=
  match s.readGreg g with
  | some val => s.conclude (.respond val)
  | none     => s.conclude (.error .badReg)

end Sys2Proof.Machine
end

