-- ==== Sys2Proof/Machine/Envelope.lean ====
section
/-! DEFINITION. The envelope command ETICK (spec/42_envelope.md). Comparisons and sums are on numbers, not on 16-bit words (R111). -/

namespace Sys2Proof.Machine

/-- `env_step(v)`: the one branch of R112 to R116 that the stage at entry selects, on the pre-update level (R111). -/
def Voice.envStep (x : Voice) : Voice :=
  let e := x.env.toNat
  let a := x.atk.toNat
  let d := x.dcy.toNat
  let u := x.sus.toNat
  let r := x.rls.toNat
  match x.stage with
  | .idle    => x
  | .attack  => if 65535 - e ≤ a then { x with env := 0xFFFF, stage := .decay } else { x with env := BitVec.ofNat 16 (e + a) }
  | .decay   => if e ≤ u + d then { x with env := x.sus, stage := .sustain } else { x with env := BitVec.ofNat 16 (e - d) }
  | .sustain => x
  | .release => if e ≤ r then { x with env := 0, stage := .idle } else { x with env := BitVec.ofNat 16 (e - r) }

/-- The age counter advanced, wrapping (R117). -/
def Voice.ageStep (x : Voice) : Voice := { x with age := wrapu 16 (unsigned x.age + 1) }

/-- One bank's part of ETICK (R110). -/
def Voice.controlTick (x : Voice) : Voice := x.envStep.ageStep

/-- ETICK (R110): every bank, in any order (R118). -/
def execEtick (s : State) : Host.Outcome State Fault Refusal :=
  (s.mapVoices Voice.controlTick).conclude .done

end Sys2Proof.Machine
end

