-- ==== Sys2Proof/Machine/FmParams.lean ====
section
/-! DEFINITION. The FM decay and parameter refresh commands FMDK and REFR (spec/43_fm_parameters.md). -/

namespace Sys2Proof.Machine

/-- One bank's part of FMDK: `x - ((x * k) >> 16)` on the exact product (R130). -/
def Voice.fmDecay (x : Voice) : Voice :=
  { x with fmexp := wrapu 16 (unsigned x.fmexp - shiftFloor (unsigned x.fmexp * unsigned x.fmdec) 16) }

/-- The value REFR gives the amplitude latch: `(AMPBASE * ENV[15:8]) >> 8` (R136). -/
def Voice.ampValue (x : Voice) : U8 :=
  wrapu 8 (shiftFloor (unsigned x.ampbase * unsigned (hiByte x.env)) 8)

/-- The value REFR gives the FM amplitude latch: FMDA signed, the shift arithmetic, the sum wrapped (R137). -/
def Voice.fmampValue (x : Voice) : U16 :=
  wrapu 16 (unsigned x.fma0 + shiftFloor (sext x.fmda * unsigned x.fmexp) 16)

/-- Both latches recomputed from the bank at entry (R135). -/
def Voice.refresh (x : Voice) : Voice := { x with amp := x.ampValue, fmamp := x.fmampValue }

/-- FMDK (R130). -/
def execFmdk (s : State) : Host.Outcome State Fault Refusal :=
  (s.mapVoices Voice.fmDecay).conclude .done

/-- REFR v (R135). -/
def execRefr (v : VoiceIx) (s : State) : Host.Outcome State Fault Refusal :=
  (s.setVoice v (s.voice v).refresh).conclude .done

end Sys2Proof.Machine
end

