-- ==== Sys2Proof/Machine/SampleStage.lean ====
section
/-! DEFINITION. The sample stage command SYNC (spec/44_sample_stage.md). -/

namespace Sys2Proof.Machine

/-- Step 1 for one bank: both phase accumulators advance, wrapping (R153). -/
def Voice.advance (x : Voice) : Voice :=
  { x with
    fmphase := wrapu 16 (unsigned x.fmphase + unsigned x.fminc)
    phase   := wrapu 16 (unsigned x.phase + unsigned x.inc) }

/-- `m[v]`: the modulator sample, looked up at the FM phase's high byte (R154). -/
def Voice.modulator (cfg : Config) (x : Voice) : Int := sineAt cfg (hiByte x.fmphase)

/-- `t[v]`: the note phase offset by the modulator times the FM amplitude, wrapped (R155). -/
def Voice.modulatedPhase (cfg : Config) (x : Voice) : U16 :=
  wrapu 16 (unsigned x.phase + x.modulator cfg * unsigned x.fmamp)

/-- `c[v]`: the carrier sample at the modulated phase's high byte times the amplitude latch (R156, R157). -/
def Voice.contribution (cfg : Config) (x : Voice) : Int :=
  sineAt cfg (hiByte (x.modulatedPhase cfg)) * unsigned x.amp

/-- `acc`: the four contributions summed at the accumulator's width (R158). -/
def mix (cfg : Config) (b : Voices) : Int :=
  wraps cfg.accW (b.v0.contribution cfg + b.v1.contribution cfg + b.v2.contribution cfg + b.v3.contribution cfg)

/-- `out`: the sum divided, rounding toward zero, and offset to the midpoint (R160). -/
def quantise (cfg : Config) (acc : Int) : Int := tdiv acc cfg.outDiv + unsigned cfg.outMid

/-- `sample_update()`: the phases advance, and the advanced banks give the new duty value (R152, R161). Nothing saturates (R162). -/
def State.sampleUpdate (s : State) : State :=
  let b := s.voices.map Voice.advance
  { s with voices := b, duty := wrapu 16 (quantise s.cfg (mix s.cfg b)) }

/-- SYNC (R150): held while no boundary is pending (R151), else the boundary is consumed and one sample produced. -/
def execSync (s : State) : Host.Outcome State Fault Refusal :=
  if s.sdue then ({ s with sdue := false }.sampleUpdate).conclude .done else s.conclude .hold

end Sys2Proof.Machine
end

