-- ==== Sys2Proof/Machine/VoiceControl.lean ====
section
/-! DEFINITION. The voice control commands KON and KOFF (spec/41_voice_control.md). -/

namespace Sys2Proof.Machine

/-- A bank claimed for a key: the seven writes of R100. -/
def Voice.claim (x : Voice) (key : U8) : Voice :=
  { x with phase := 0, fmphase := 0, stage := .attack, env := 0, fmexp := 0xFFFF, age := 0, key := key }

/-- A bank at a release of a key: Release where it holds the key, whatever its stage (R102, R103). -/
def Voice.releaseKey (x : Voice) (key : U8) : Voice :=
  if x.key = key then { x with stage := .release } else x

/-- KON v, key (R100, R101). -/
def execKon (v : VoiceIx) (key : U8) (s : State) : Host.Outcome State Fault Refusal :=
  (s.setVoice v ((s.voice v).claim key)).conclude .done

/-- KOFF key (R102, R103). -/
def execKoff (key : U8) (s : State) : Host.Outcome State Fault Refusal :=
  (s.mapVoices fun x => x.releaseKey key).conclude .done

end Sys2Proof.Machine
end

