-- ==== Sys2Proof/Machine/Dispatch.lean ====
section
/-! DEFINITION. `exec`: one arm per command, each a call of its meaning (spec/30_encoding.md R73). -/

namespace Sys2Proof.Machine

def exec (i : Instr) (s : State) : Host.Outcome State Fault Refusal :=
  match i with
  | .nop => Sys2Proof.Machine.execNop s
  | .wr v r imm => Sys2Proof.Machine.execWr v r imm s
  | .rd v r => Sys2Proof.Machine.execRd v r s
  | .rdg g => Sys2Proof.Machine.execRdg g s
  | .kon v key => Sys2Proof.Machine.execKon v key s
  | .koff key => Sys2Proof.Machine.execKoff key s
  | .etick => Sys2Proof.Machine.execEtick s
  | .fmdk => Sys2Proof.Machine.execFmdk s
  | .refr v => Sys2Proof.Machine.execRefr v s
  | .sync => Sys2Proof.Machine.execSync s

end Sys2Proof.Machine
end

