-- ==== Sys2Proof/Machine/Engine.lean ====
section
/-! DEFINITION. The engine's turn: decoding and executing the presented command (spec/30_encoding.md R75; spec/10_state.md R44), and
how a word of the opcode table is put at the command port. -/

namespace Sys2Proof.Machine

/-- The engine's turn (R62, R75): nothing where no command is presented, `raise CmdError` for an illegal word, else the command. -/
def engineTurn (s : State) : Host.Outcome State Fault Refusal :=
  match s.cmds with
  | []     => .next s
  | w :: _ =>
    match decode w with
    | .illegal c => s.conclude (.error c)
    | .command i => exec i s

/-- One agent's turn: the engine's, the sample timer's or the platform's (R6, R63, R216, R240). -/
def agentTurn (t : Turn) (s : State) : Host.Outcome State Fault Refusal :=
  match t with
  | .engine   => engineTurn s
  | .boundary => .next s.boundary
  | .reset    => .next s.resetEvent

/-- A word presented at the command port in place of the command there, not begun, with the engine's turn next. -/
def State.present (s : State) (w : CmdWord) : State :=
  { s with cmds := w :: s.cmds.tail, schedule := .engine :: s.schedule, held := false }

end Sys2Proof.Machine
end

