-- ==== Sys2Proof/Machine/Step.lean ====
section
/-! DEFINITION. One step of the machine: the turn of the agent the schedule names, the engine's where it names none
(spec/00_scope.md R6, R15; spec/20_memory.md R63; spec/60_exceptions.md R219). -/

namespace Sys2Proof.Machine

/-- One step: an agent's turn. An empty schedule gives the turn to the engine. -/
def step (s : State) : Host.Outcome State Fault Refusal :=
  match s.schedule with
  | []      => engineTurn s
  | t :: ts => agentTurn t { s with schedule := ts }

/-- The state whose next step runs the table's word: it is presented at the command port and the engine has the next turn. -/
def State.withFetchWord (s : State) (nbits w : Nat) : State := s.present (BitVec.ofNat 32 (w % 2 ^ nbits))

end Sys2Proof.Machine
end

