-- ==== Sys2Proof/Machine/Ports.lean ====
section
/-! DEFINITION. The block's ports (spec/30_encoding.md R70) read off the model's streams. `sample_tick` and `rst` are the boundary and
reset turns of the schedule. -/

namespace Sys2Proof.Machine

/-- `cmd_valid`: a command is presented. -/
def State.cmdValid (s : State) : Bool := !s.cmds.isEmpty

/-- `cmd_word`: the command at the head of the host's stream, where one is presented. -/
def State.cmdWord (s : State) : Option CmdWord := s.cmds.head?

/-- `duty_out`: always DUTY (R41). -/
def State.dutyOut (s : State) : U16 := s.duty

/-- What the step from `s` to `t` delivered: the outcome of the command it finished, if it finished one. -/
def delivered (s t : State) : Option CmdOutcome := (t.outcomes.drop s.outcomes.length).head?

/-- `cmd_done`: the step finished the presented command; not raised while a SYNC is held. -/
def cmdDone (s t : State) : Bool := (delivered s t).isSome

/-- `rd_data`: the value of the RD or RDG the step finished; there is none at other times (R93). -/
def rdData (s t : State) : Option U16 :=
  match delivered s t with
  | some (.respond val) => some val
  | _                   => none

end Sys2Proof.Machine
end

