-- ==== Sys2Proof/Machine/Assembler.lean ====
section
/-! DEFINITION. The assembler's lines as syntax trees, the pseudo-commands and the listings of spec/30_encoding.md R77 and R78, and the
two schedules of a control loop as command lists (spec/47_host_reference.md R204, R205). Text is not parsed. -/

namespace Sys2Proof.Machine

/-! ### Lines (R77) -/

/-- `NAME` or `#n` for a voice register (R77). -/
inductive VRegRef where
  | name (r : VReg)
  | number (n : RegNum)
  deriving DecidableEq, Repr

/-- `STATUS`, `DUTY` or `#n` for a global register (R77). -/
inductive GRegRef where
  | name (g : GReg)
  | number (n : RegNum)
  deriving DecidableEq, Repr

/-- One assembler line (R77). -/
inductive AsmLine where
  | nop
  | wr (v : VoiceIx) (r : VRegRef) (value : Int)
  | rd (v : VoiceIx) (r : VRegRef)
  | rdg (g : GRegRef)
  | kon (v : VoiceIx) (key : U8)
  | koff (key : U8)
  | etick
  | fmdk
  | refr (v : VoiceIx)
  | sync
  deriving DecidableEq, Repr

/-- The register number a reference stands for. -/
def VRegRef.toNumber : VRegRef → RegNum
  | .name r   => vregNumber r
  | .number n => n

/-- The register number a reference stands for. -/
def GRegRef.toNumber : GRegRef → RegNum
  | .name g   => gregNumber g
  | .number n => n

/-- The values WR takes: 0..65535 or -32768..-1 (R77). -/
def AsmLine.valueFits : AsmLine → Bool
  | .wr _ _ value => decide (-32768 ≤ value ∧ value ≤ 65535)
  | _             => true

/-- The command of a line; a WR value is assembled as `wrapu_16(value)` (R72, R77). -/
def assemble : AsmLine → Instr
  | .nop          => .nop
  | .wr v r value => .wr v r.toNumber (wrapu 16 value)
  | .rd v r       => .rd v r.toNumber
  | .rdg g        => .rdg g.toNumber
  | .kon v key    => .kon v key
  | .koff key     => .koff key
  | .etick        => .etick
  | .fmdk         => .fmdk
  | .refr v       => .refr v
  | .sync         => .sync

/-! ### Pseudo-commands (R78) -/

/-- The ten operands of LOADV after the voice, in its order (R78). -/
structure VoiceParams where
  inc     : U16
  fminc   : U16
  fma0    : U16
  fmda    : U16
  fmdec   : U16
  atk     : U16
  dcy     : U16
  sus     : U16
  rls     : U16
  ampbase : U16
  deriving DecidableEq, Repr

/-- REFRALL (R78). -/
def refrAll : List Instr := [.refr 0, .refr 1, .refr 2, .refr 3]

/-- LOADV v, …: ten WR commands in this order (R78). -/
def loadVoice (v : VoiceIx) (p : VoiceParams) : List Instr :=
  [ .wr v (vregNumber .inc) p.inc,     .wr v (vregNumber .fminc) p.fminc, .wr v (vregNumber .fma0) p.fma0,
    .wr v (vregNumber .fmda) p.fmda,   .wr v (vregNumber .fmdec) p.fmdec, .wr v (vregNumber .atk) p.atk,
    .wr v (vregNumber .dcy) p.dcy,     .wr v (vregNumber .sus) p.sus,     .wr v (vregNumber .rls) p.rls,
    .wr v (vregNumber .ampbase) p.ampbase ]

/-- NOTEON v, key, …: LOADV, then KON (R78). -/
def noteOn (v : VoiceIx) (key : U8) (p : VoiceParams) : List Instr := loadVoice v p ++ [.kon v key]

/-- CTICK: one control tick of the reference host with no key event (R78, R204). -/
def ctick : List Instr :=
  [ .sync, .sync, .sync, .sync, .fmdk, .sync, .etick, .sync,
    .refr 0, .sync, .refr 1, .sync, .refr 2, .sync, .refr 3, .sync ]

/-- CTICK0: the same control tick without its SYNC commands (R78). -/
def ctick0 : List Instr := [.fmdk, .etick, .refr 0, .refr 1, .refr 2, .refr 3]

/-- One sample of the alternative schedule, `FMDK, REFRALL, SYNC` (R205). -/
def literalSample : List Instr := [.fmdk] ++ refrAll ++ [.sync]

/-! ### Listings (R77) -/

/-- One line of a listing: a command, `@boundary` (a sample-boundary event at that point of the stream) or `@reset` (R77). -/
inductive ListingLine where
  | command (i : Instr)
  | boundary
  | reset
  deriving DecidableEq, Repr

/-- The word a line of a listing gives the command stream. -/
def ListingLine.word? : ListingLine → Option CmdWord
  | .command i => some (encode i)
  | _          => none

/-- How far a listing has come: the turns so far, SDUE after them, and the commands that wait, a held SYNC first. Where none waits,
every command so far has finished. -/
structure ListingPoint where
  turns   : List Turn
  due     : Bool
  waiting : List Instr
  deriving DecidableEq, Repr

/-- The engine goes through commands until they have finished or a SYNC among them is held: one turn for each that finishes, and one
in which a SYNC without a pending boundary begins to wait (R62, R150, R151). -/
def engineGoes (turns : List Turn) (due : Bool) : List Instr → ListingPoint
  | []      => ⟨turns, due, []⟩
  | i :: is =>
    if i = .sync then
      if due then engineGoes (turns ++ [.engine]) false is else ⟨turns ++ [.engine], false, i :: is⟩
    else engineGoes (turns ++ [.engine]) due is

/-- One line more. A command behind a held SYNC waits too (R151). An event comes when every command before it has finished, or while
the SYNC is held that keeps them from finishing; a boundary lets that SYNC run before the next line, a reset drops it (R77, R240). -/
def ListingPoint.line (p : ListingPoint) : ListingLine → ListingPoint
  | .command i =>
    match p.waiting with
    | []     => engineGoes p.turns p.due [i]
    | _ :: _ => { p with waiting := p.waiting ++ [i] }
  | .boundary  => engineGoes (p.turns ++ [.boundary]) true p.waiting
  | .reset     => engineGoes (p.turns ++ [.reset]) false p.waiting.tail

/-- The turns a listing takes from a state in which SDUE is `due`, so that each event falls at its point of the stream (R77). -/
def listingTurns (due : Bool) (l : List ListingLine) : List Turn := (l.foldl ListingPoint.line ⟨[], due, []⟩).turns

/-- A listing in place of what the streams hold: its commands in the command stream, none of them begun, its turns in the schedule. -/
def State.loadListing (s : State) (l : List ListingLine) : State :=
  { s with cmds := l.filterMap ListingLine.word?, schedule := listingTurns s.sdue l, held := false }

end Sys2Proof.Machine
end

