-- ==== Sys2Proof/Machine/RefHost.lean ====
section
/-! DEFINITION. The reference host of spec/47_host_reference.md: the key translator, the voice allocator, the instrument and tone
tables as parameters, and the control loop, driving the block by its command stream alone (R180). It is no part of the block
(spec/00_scope.md R4); no definition of the block uses it. -/

namespace Sys2Proof.Machine

/-! ### Host state and tables (R180 to R189) -/

/-- What a key line is bound to, and what a control tick's press or release event is: a logical key, the instrument-select
sentinel, or nothing (R182, R183). -/
inductive KeyBinding where
  | none
  | instrumentSelect
  | logicalKey (n : U8)
  deriving DecidableEq, Repr

/-- The key mailbox: 32 key lines (R181). -/
structure KeyState where
  current  : BitVec 32
  previous : BitVec 32
  changed  : BitVec 32
  updated  : Bool
  deriving DecidableEq, Repr

/-- An instrument's ten attributes (R188: integers). R197 gives loudness, the three rates, the sustain level and the FM decay rate
their ranges. The other four are the model's reading, log entry 19: the pitch offset and the FM amplitude end have the ranges that
R189 and R197 leave them room for (DEDUCED), the FM ratio and the FM amplitude start are any integers (DESIGN CHOICE). -/
structure Instrument where
  loudness     : U8
  /-- Not negative: it indexes the tone table with key 0 (R189). DEDUCED, log entry 19. -/
  pitchOffset  : Nat
  attackRate   : U16
  decayRate    : U16
  sustainLevel : U8
  releaseRate  : U16
  /-- In units of 1/256 (R197); any sign and size. DESIGN CHOICE, log entry 19. -/
  fmRatio      : Int
  /-- Any sign and size: R197 wraps the difference it enters. DESIGN CHOICE, log entry 19. -/
  fmAmpStart   : Int
  /-- Copied into FMA0, a u16 (R25, R197). DEDUCED, log entry 19. -/
  fmAmpEnd     : U16
  fmDecayRate  : U16
  deriving DecidableEq, Repr

/-- The open tables and constants of the host (R182, R185, R186, R188, R189) with the conditions the spec puts on them. -/
structure HostTables where
  /-- KEYMAP, by bit position. -/
  keymap    : List KeyBinding
  /-- N_KEYS: logical keys are 0 to N_KEYS - 1. -/
  nKeys     : Nat
  /-- REF_KEY: the key the instrument-select sentinel is remapped to. -/
  refKey    : U8
  /-- SCAN_ORDER: the order in which changed bits are examined. -/
  scanOrder : List (Fin 32)
  /-- INSTR: the twelve presets. -/
  instr     : List Instrument
  /-- TONE_INC: the 48 phase increments. -/
  toneInc   : List U16
  keymap_length  : keymap.length = 32
  nKeys_le       : nKeys ≤ 0xFE
  keymap_keys    : ∀ b ∈ keymap, ∀ n, b = .logicalKey n → n.toNat < nKeys
  refKey_lt      : refKey.toNat < nKeys
  scanOrder_all  : ∀ b : Fin 32, b ∈ scanOrder
  scanOrder_once : scanOrder.Nodup
  instr_length   : instr.length = 12
  toneInc_length : toneInc.length = 48
  pitch_lt       : ∀ p ∈ instr, p.pitchOffset + nKeys ≤ 48

/-- The default SCAN_ORDER: ascending bit position (R185). -/
def ascendingScan : List (Fin 32) := List.finRange 32

/-- Where the host stands in its control loop (R201): before an action of the ten, before the assignment of step 3 whose register
reads it has sent, or before the SYNC that ends a step. -/
inductive HostPhase where
  | act (k : Fin 10)
  | assign (key : U8)
  | sync (k : Fin 10)
  deriving DecidableEq, Repr

/-- The host's state (R180): the mailbox, the instrument index, the two event variables and the place in the loop. -/
structure RefHost where
  keys       : KeyState
  instrument : Fin 12
  pressed    : KeyBinding
  released   : KeyBinding
  phase      : HostPhase
  deriving DecidableEq, Repr

/-- The host at its start: instrument index 0 (R187), before step 1. No rule gives the mailbox's initial value (R242 points to R181,
which gives none): no key line set in any of the three bitmasks, and the flag clear, are the model's DESIGN CHOICE (log entry 17). -/
def RefHost.initial : RefHost where
  keys       := ⟨0, 0, 0, false⟩
  instrument := 0
  pressed    := .none
  released   := .none
  phase      := .act 0

/-- The producer stores a snapshot: the last one wins, and the flag says there is one (R181). -/
def KeyState.store (k : KeyState) (snapshot : BitVec 32) : KeyState := { k with current := snapshot, updated := true }

/-! ### Key event translator (R184 to R186) -/

/-- One bit examined: an unchanged bit, and a bit bound to nothing, leaves both events; a set one overwrites the press event, a
cleared one the release event (R184, R185). -/
def scanBit (t : HostTables) (current changed : BitVec 32) (events : KeyBinding × KeyBinding) (b : Fin 32) :
    KeyBinding × KeyBinding :=
  if changed.getLsbD b then
    match t.keymap[b]'(by rw [t.keymap_length]; exact b.isLt) with
    | .none => events
    | e     => if current.getLsbD b then (e, events.2) else (events.1, e)
  else events

/-- The press event and the release event of a control tick (R184, R185). -/
def translateKeys (t : HostTables) (current changed : BitVec 32) : KeyBinding × KeyBinding :=
  t.scanOrder.foldl (scanBit t current changed) (.none, .none)

/-- Step 1, read keys: the mailbox is read once, the snapshot becomes the previous one; with the flag clear there is no change (R181, R184). -/
def RefHost.readKeys (t : HostTables) (h : RefHost) : RefHost :=
  let changed := if h.keys.updated then h.keys.current ^^^ h.keys.previous else 0
  let events := translateKeys t h.keys.current changed
  { h with
    keys     := { current := h.keys.current, previous := h.keys.current, changed := changed, updated := false }
    pressed  := events.1
    released := events.2 }

/-- An instrument-select event is remapped to the reference key (R186). -/
def remapSelect (t : HostTables) : KeyBinding → KeyBinding
  | .instrumentSelect => .logicalKey t.refKey
  | e                 => e

/-- Step 2, resolve the instrument switch: a pressed sentinel advances the index modulo 12, then both events are remapped (R186, R187). -/
def RefHost.resolveInstrument (t : HostTables) (h : RefHost) : RefHost :=
  { h with
    instrument := if h.pressed = .instrumentSelect then h.instrument + 1 else h.instrument
    pressed    := remapSelect t h.pressed
    released   := remapSelect t h.released }

/-! ### Voice allocator (R190 to R198) -/

/-- The four registers of a voice the allocator reads (R190). -/
structure VoiceView where
  key   : U16
  stage : U16
  env   : U16
  age   : U16
  deriving DecidableEq, Repr

/-- `idle(v)` on the values read (R36, R190). -/
def VoiceView.isIdle (x : VoiceView) : Bool := x.stage == 0 && x.env == 0

/-- The lowest-indexed voice with a property. -/
def lowestVoice (p : VoiceIx → Bool) : Option VoiceIx :=
  if p 0 then some 0 else if p 1 then some 1 else if p 2 then some 2 else if p 3 then some 3 else none

/-- The largest age (R195). -/
def maxAge (view : VoiceIx → VoiceView) : Nat :=
  max (max (view 0).age.toNat (view 1).age.toNat) (max (view 2).age.toNat (view 3).age.toNat)

/-- Step 1 of the allocator: the lowest voice that holds the key and is non-idle (R192). -/
def retriggerVoice (key : U8) (view : VoiceIx → VoiceView) : Option VoiceIx :=
  lowestVoice fun v => (view v).key == key.setWidth 16 && !(view v).isIdle

/-- Step 2 of the allocator: the lowest idle voice (R193). -/
def idleVoice (view : VoiceIx → VoiceView) : Option VoiceIx := lowestVoice fun v => (view v).isIdle

/-- Step 3 of the allocator: the lowest voice of the largest age (R195). -/
def oldestVoice (view : VoiceIx → VoiceView) : VoiceIx :=
  (lowestVoice fun v => (view v).age.toNat == maxAge view).getD 0

/-- The voice a press goes to: the three steps tried in order (R190, R194). -/
def chooseVoice (key : U8) (view : VoiceIx → VoiceView) : VoiceIx :=
  ((retriggerVoice key view).or (idleVoice view)).getD (oldestVoice view)

/-- The phase increment of a logical key with a pitch offset (R189). -/
def toneOf (t : HostTables) (pitchOffset : Nat) (key : U8) : U16 := t.toneInc.getD (pitchOffset + key.toNat) 0

/-- The operands of an assignment from an instrument and a key (R197). -/
def assignParams (t : HostTables) (p : Instrument) (key : U8) : VoiceParams :=
  let inc := toneOf t p.pitchOffset key
  { inc     := inc
    fminc   := wrapu 16 (shiftFloor (unsigned inc * p.fmRatio) 8)
    fma0    := p.fmAmpEnd
    fmda    := wrapu 16 (p.fmAmpStart - unsigned p.fmAmpEnd)
    fmdec   := p.fmDecayRate
    atk     := p.attackRate
    dcy     := p.decayRate
    sus     := wrapu 16 (unsigned p.sustainLevel * 256)
    rls     := p.releaseRate
    ampbase := p.loudness.setWidth 16 }

/-- The current instrument (R187, R188). -/
def currentInstrument (t : HostTables) (h : RefHost) : Instrument :=
  t.instr[h.instrument]'(by rw [t.instr_length]; exact h.instrument.isLt)

/-- The four reads of a voice (R190). -/
def viewReads (v : VoiceIx) : List Instr :=
  [.rd v (vregNumber .key), .rd v (vregNumber .stage), .rd v (vregNumber .env), .rd v (vregNumber .age)]

/-- The sixteen reads of the allocator (R190, R252). -/
def allocatorReads : List Instr := viewReads 0 ++ viewReads 1 ++ viewReads 2 ++ viewReads 3

/-- A voice as the last sixteen values on the read-data port show it (R190). -/
def viewOf (responses : List U16) (v : VoiceIx) : VoiceView :=
  let vals := responses.drop (responses.length - 16)
  ⟨vals.getD (4 * v) 0, vals.getD (4 * v + 1) 0, vals.getD (4 * v + 2) 0, vals.getD (4 * v + 3) 0⟩

/-- The assignment of a press (R196). -/
def assignment (t : HostTables) (h : RefHost) (key : U8) (view : VoiceIx → VoiceView) : List Instr :=
  noteOn (chooseVoice key view) key (assignParams t (currentInstrument t h) key)

/-! ### The control loop (R200 to R204) -/

/-- Step 3: the reads, where there is a press event (R201). -/
def RefHost.allocate (h : RefHost) : List Instr × RefHost :=
  match h.pressed with
  | .logicalKey key => (allocatorReads, { h with phase := .assign key })
  | _               => ([], { h with phase := .sync 2 })

/-- Step 4: KOFF, where there is a release event (R198, R201). -/
def RefHost.release (h : RefHost) : List Instr :=
  match h.released with
  | .logicalKey key => [.koff key]
  | _               => []

/-- Steps 1 to 10 of the control tick: the commands sent and the host after them (R201). -/
def RefHost.act (t : HostTables) (h : RefHost) (k : Fin 10) : List Instr × RefHost :=
  match k with
  | 0 => ([], { h.readKeys t with phase := .sync 0 })
  | 1 => ([], { h.resolveInstrument t with phase := .sync 1 })
  | 2 => h.allocate
  | 3 => (h.release, { h with phase := .sync 3 })
  | 4 => ([.fmdk], { h with phase := .sync 4 })
  | 5 => ([.etick], { h with phase := .sync 5 })
  | 6 => ([.refr 0], { h with phase := .sync 6 })
  | 7 => ([.refr 1], { h with phase := .sync 7 })
  | 8 => ([.refr 2], { h with phase := .sync 8 })
  | 9 => ([.refr 3], { h with phase := .sync 9 })

/-- The host's turn, given what the read-data port has delivered: its next commands and the host after them. A SYNC follows every
step, the tenth before the first of the next control tick (R201). -/
def RefHost.turn (t : HostTables) (responses : List U16) (h : RefHost) : List Instr × RefHost :=
  match h.phase with
  | .act k      => h.act t k
  | .assign key => (assignment t h key (viewOf responses), { h with phase := .sync 2 })
  | .sync k     => ([.sync], { h with phase := .act (k + 1) })

/-- Who acts in a step of the whole system: host and block, or the key-scan collaborator, which stores a snapshot of the key lines in
the mailbox (R181). When it does so is open: DESIGN CHOICE, log entry 18. -/
inductive SystemTurn where
  | run
  | store (snapshot : BitVec 32)
  deriving DecidableEq, Repr

/-- The host, the block it drives (R180), and whose turn the coming steps are; host and block act where the list says nothing. -/
structure System where
  block  : State
  host   : RefHost
  tables : HostTables
  turns  : List SystemTurn

/-- Host and block: the host acts where every command it sent has finished, else the block does (R6, R201). The host sees the stream
alone, so where a reset of the block dropped its held SYNC, for which no `done` is raised (R240), it goes on with its next step as if
the SYNC had finished, with its own state as it was: DESIGN CHOICE, log entry 20. -/
def System.run (y : System) : Host.Outcome System Fault Refusal :=
  match y.block.cmds with
  | [] =>
    let (cmds, h) := y.host.turn y.tables y.block.responses
    .next { y with block := { y.block with cmds := cmds.map encode }, host := h }
  | _ :: _ =>
    match Sys2Proof.Machine.step y.block with
    | .next b    => .next { y with block := b }
    | .fault r   => .fault r
    | .refused r => .refused r

/-- One step of the system: a stored snapshot overwrites the one before it, read or not (R181), else host and block act. -/
def System.step (y : System) : Host.Outcome System Fault Refusal :=
  match y.turns with
  | []               => y.run
  | .run :: ts       => System.run { y with turns := ts }
  | .store k :: ts   => .next { y with host := { y.host with keys := y.host.keys.store k }, turns := ts }

end Sys2Proof.Machine
end

