-- ==== Sys2Proof/Safety.lean ====
section
/-! DEFINITION. The terms claims are stated in: what a finished and a refused command leave, which commands are accepted, which command
may write which register, runs of commands, and the invariants of the block. -/

namespace Sys2Proof.Machine

/-! ### How a command ends -/

/-- From `s` to `t` a command finished with outcome `o`, and nothing but the voice banks may have changed besides: the global
registers, the configuration and the schedule are as before, and the next command is presented. -/
structure FinishedWith (o : CmdOutcome) (s t : State) : Prop where
  cfg      : t.cfg = s.cfg
  duty     : t.duty = s.duty
  sdue     : t.sdue = s.sdue
  err      : t.err = s.err
  errcode  : t.errcode = s.errcode
  held     : t.held = false
  schedule : t.schedule = s.schedule
  cmds     : t.cmds = s.cmds.tail
  outcomes : t.outcomes = s.outcomes ++ [o]

/-- From `s` to `t` a command was refused with code `c`: nothing but the error record changed, which keeps the first code, and the
next command is presented (R211, R220). -/
structure RefusedWith (c : CmdError) (s t : State) : Prop where
  cfg      : t.cfg = s.cfg
  voices   : t.voices = s.voices
  duty     : t.duty = s.duty
  sdue     : t.sdue = s.sdue
  err      : t.err = true
  errcode  : t.errcode = if s.err then s.errcode else errorCode c
  held     : t.held = false
  schedule : t.schedule = s.schedule
  cmds     : t.cmds = s.cmds.tail
  outcomes : t.outcomes = s.outcomes ++ [.error c]

/-- The command is not refused: its register exists, may be written and takes the value (R91, R92, R94). -/
def accepted : Instr → Bool
  | .wr _ r imm => (vregOf r).any fun reg => vregLegalImm reg imm
  | .rd _ r     => (vregOf r).isSome
  | .rdg g      => (gregOf g).isSome
  | _           => true

/-! ### Who writes what (the `Written by` of R21 to R40) -/

/-- The command may write register r of voice v. KOFF may write STAGE of every voice, since which voices hold its key is a matter
of the state. -/
def mayWrite (i : Instr) (v : VoiceIx) (r : VReg) : Bool :=
  match i with
  | .wr w n _ => w == v && vregOf n == some r
  | .kon w _  => w == v && [VReg.phase, .fmphase, .stage, .env, .fmexp, .age, .key].contains r
  | .koff _   => r == .stage
  | .etick    => [VReg.stage, .env, .age].contains r
  | .fmdk     => r == .fmexp
  | .refr w   => w == v && [VReg.amp, .fmamp].contains r
  | .sync     => [VReg.phase, .fmphase].contains r
  | _         => false

/-- The command leaves what voice v's envelope depends on: STAGE, ENV and the four parameters. -/
def leavesEnvelope (v : VoiceIx) (i : Instr) : Bool :=
  [VReg.stage, .env, .atk, .dcy, .sus, .rls].all fun r => !mayWrite i v r

/-- The command leaves voice v's envelope in this state: it never touches it, or it is a KOFF of a key that v does not hold (R102). -/
def State.envelopeKeptBy (s : State) (v : VoiceIx) (i : Instr) : Bool :=
  leavesEnvelope v i ||
    match i with
    | .koff key => s.reg v .key != key.setWidth 16
    | _         => false

/-! ### Runs of commands -/

/-- Commands and events one after another, each command as `exec` executes it. A SYNC that is held ends the run: no later command is
executed (R151). What an event behind it would bring about is not followed here. -/
def execLines : List ListingLine → State → Host.Outcome State Fault Refusal
  | [], s => .next s
  | .command i :: ls, s =>
    match exec i s with
    | .next t    => if t.held then .next t else execLines ls t
    | .fault r   => .fault r
    | .refused r => .refused r
  | .boundary :: ls, s => execLines ls s.boundary
  | .reset :: ls, s => execLines ls s.resetEvent

/-- Commands executed one after another; a SYNC that is held ends the run, since no event comes (R151). -/
def execSeq (is : List Instr) (s : State) : Host.Outcome State Fault Refusal := execLines (is.map .command) s

/-- In this run of commands and boundary events every SYNC finds its boundary pending, so that it runs, and every command but ETICK
leaves voice v's envelope. -/
def envelopeRun (v : VoiceIx) : List ListingLine → State → Bool
  | [], _ => true
  | .command i :: ls, s =>
    (i == .etick || s.envelopeKeptBy v i) && (i != .sync || s.sdue) &&
      match exec i s with
      | .next t    => envelopeRun v ls t
      | .fault _   => false
      | .refused _ => false
  | .boundary :: ls, s => envelopeRun v ls s.boundary
  | .reset :: _, _ => false

/-- The k-th state of the machine's run, where every step answers a next state. -/
def runSteps (k : Nat) (s : State) : Host.Outcome State Fault Refusal := Sys2Proof.core.run k s

/-! ### The host's side -/

/-- What the allocator is to know of a voice (R190). -/
def State.view (s : State) (v : VoiceIx) : VoiceView := ⟨s.reg v .key, s.reg v .stage, s.reg v .env, s.reg v .age⟩

/-- Exactly one voice per actively-sounding key: no two non-idle voices hold the same key (R192). -/
def State.oneVoicePerKey (s : State) : Prop :=
  ∀ v w, (s.voice v).isIdle = false → (s.voice w).isIdle = false → (s.voice v).key = (s.voice w).key → v = w

/-- The commands of the host's next n turns, and the host after them, where the read-data port delivers nothing meanwhile. -/
def hostTurns : Nat → HostTables → List U16 → RefHost → List Instr × RefHost
  | 0, _, _, h => ([], h)
  | n + 1, t, responses, h =>
    let first := h.turn t responses
    let rest := hostTurns n t responses first.2
    (first.1 ++ rest.1, rest.2)

/-! ### Invariants -/

/-- The error record is one the block produces: code 0 without an error, codes 1 to 5 with one (R212). -/
def State.errorRecordOk (s : State) : Bool :=
  if s.err then 1 ≤ s.errcode.toNat && s.errcode.toNat ≤ 5 else s.errcode == 0

/-- The invariant of the block: no amplitude latch exceeds 254 (R39, R136), the error record is well formed (R212), and a held command
is a SYNC, still presented (R15, R46). -/
structure State.Inv (s : State) : Prop where
  amp_le   : ∀ v, (s.voice v).amp.toNat ≤ 254
  errorOk  : s.errorRecordOk = true
  heldSync : s.held = true → s.cmds.head? = some (encode .sync)

/-- Every voice in stage Idle is at level 0 (R36); a WR can break it, no other command. -/
def State.idleIsSilent (s : State) : Prop := ∀ v, (s.voice v).stage = .idle → (s.voice v).env = 0

/-- A run is free of errors so far: the premise of every claim about a command stream (R211). -/
def State.errorFree (s : State) : Prop := s.err = false

end Sys2Proof.Machine
end

