-- ==== Sys2Proof/Certificates/Slice0/Obligations.lean ====
section
/-! DEFINITION. The statements about the model, one for each entry of OBLIGATIONS.json. The block has no byte-addressable memory
(spec/20_memory.md R50, R59): its addressable storage is the voice and global registers, so a frame speaks of every register of
every voice, of the global registers, and of the command stream. A statement about a command gives the next state `exec` answers. -/

open Sys2Proof Sys2Proof.Machine

/-- Reset values of every register. For every configuration, after reset every register of every voice reads 0 except KEY, which
reads 0xFF; DUTY is wrapu_16(OUT_MID); SDUE, ERR and ERRCODE are 0, and no SYNC is held. State.reset is this state for the
default configuration, with DUTY = 256. (R48) -/
def Obligations.ResetGivesEveryRegisterItsValue : Prop :=
  (∀ (cfg : Config) (v : VoiceIx) (r : VReg), (State.resetOf cfg).reg v r = if r = .key then 0xFF else 0) ∧
  (∀ cfg : Config,
    (State.resetOf cfg).duty = wrapu 16 (unsigned cfg.outMid) ∧ (State.resetOf cfg).sdue = false ∧
    (State.resetOf cfg).err = false ∧ (State.resetOf cfg).errcode = 0 ∧ (State.resetOf cfg).held = false) ∧
  State.reset = State.resetOf Config.default ∧ State.reset.duty = 256

/-- A reset event, from any state. A step whose turn is a reset answers a next state in which every register has its reset
value, a pending boundary is forgotten, and a held SYNC, one the engine has begun, is dropped, whether or not a boundary has
come for it. The configuration stays. Where no SYNC is held the model keeps the whole stream, a SYNC the engine has not begun
included; and it keeps what was delivered and the rest of the schedule (DESIGN CHOICE, log entry 5). (R240, R48, R46, R151,
R242, 10_state.md section 4) -/
def Obligations.ResetEventRestoresEveryRegister : Prop :=
  ∀ (s : State) (ts : List Turn), s.schedule = .reset :: ts →
    ∃ t, step s = .next t ∧
      (∀ v r, t.reg v r = if r = .key then 0xFF else 0) ∧
      t.duty = wrapu 16 (unsigned s.cfg.outMid) ∧ t.sdue = false ∧ t.err = false ∧ t.errcode = 0 ∧
      t.held = false ∧ t.cfg = s.cfg ∧ t.schedule = ts ∧ t.outcomes = s.outcomes ∧
      (∀ w rest, s.held = true → s.cmds = w :: rest → t.cmds = rest) ∧ (s.held = false → t.cmds = s.cmds)

/-- The reset state meets the invariant. The reset state of every configuration meets the invariant: every amplitude latch is at
most 254, the error record is code 0 without an error and a code of 1 to 5 with one, and no command is held. (R39, R48, R212,
10_state.md section 4) -/
def Obligations.ResetMeetsTheInvariant : Prop :=
  State.reset.Inv ∧ ∀ cfg : Config, (State.resetOf cfg).Inv

/-- Every step keeps the invariant. From every state in which each amplitude latch is at most 254, the error record is well
formed (code 0 without an error, 1 to 5 with one), and a held command is a SYNC that is still presented, every step answers a
state of which the same holds. (R15, R39, R46, R136, R211, R212, 60_exceptions.md section 1) -/
def Obligations.EveryStepKeepsTheInvariant : Prop :=
  ∀ s t : State, s.Inv → step s = .next t → t.Inv

/-- Idle implies level 0, under every step but a WR. If every voice in stage Idle is at level 0, then after every step every
voice in stage Idle is at level 0, unless the engine has the turn (an empty schedule, or an engine turn at its head) and the
presented word is a WR command. Boundary and reset turns are no exception, whatever word is presented. (R36, R112, R116, R216,
R240, 10_state.md section 1) -/
def Obligations.IdleStaysSilentWithoutWr : Prop :=
  ∀ s t : State, s.idleIsSilent →
    (s.schedule = [] ∨ (∃ ts, s.schedule = .engine :: ts) →
      ∀ w v r imm, s.cmds.head? = some w → decode w ≠ .command (.wr v r imm)) →
    step s = .next t → t.idleIsSilent

/-- Every step answers a next state. From every state, whatever the schedule, the presented word and the registers, a step
answers a next state: no command sequence stops the block. That every word and command has a result is R75, R207, R210 and R211;
that the machine has no fault is the model's reading of them (DEDUCED, log entry 9), and so is that a held SYNC, which U12 calls
stuck, is a step in which it goes on waiting (DEDUCED, log entry 6); that the engine's turn with no command presented is a step
that changes nothing is the model's choice (DESIGN CHOICE, log entry 7). (60_exceptions.md section 1, 30_encoding.md section 4,
47_host_reference.md section 6) -/
def Obligations.EveryStepAnswersNext : Prop :=
  ∀ s : State, ∃ t, step s = .next t

/-- No step changes the configuration. The sine table, the accumulator width, the divisor and the midpoint are the same before
and after every step, a reset event included. (R9, R47, R242, 70_reset_and_hazards.md section 2) -/
def Obligations.NoStepChangesTheConfiguration : Prop :=
  ∀ s t : State, step s = .next t → t.cfg = s.cfg

/-- A run of accepted commands records no error. Executing any commands whose registers exist, may be written and take the
values, in any order, with boundary events anywhere among them and from any state, leaves ERR and ERRCODE as they were. A SYNC
that is held ends the run (R151). (R91, R92, R94, R151, R211, R212, 60_exceptions.md section 1) -/
def Obligations.AcceptedCommandsLeaveTheErrorRecord : Prop :=
  ∀ (ls : List ListingLine) (s : State), (∀ l ∈ ls, l = .boundary ∨ ∃ i, l = .command i ∧ accepted i = true) →
    ∃ t, execLines ls s = .next t ∧ t.err = s.err ∧ t.errcode = s.errcode

/-- Decoding an encoded command gives it back. For every command with every value of its operands, decoding its word gives the
command. (R71, R73, R75, 30_encoding.md section 3) -/
def Obligations.DecodeOfEncodeIsTheCommand : Prop :=
  ∀ i : Instr, decode (encode i) = .command i

/-- A word that decodes to a command is that command's word. If a 32-bit word decodes to a command, encoding the command gives
the word: no bit of a word is ignored, and no two words are the same command. (R71, R73, R74, R75, 30_encoding.md section 4) -/
def Obligations.EncodeOfDecodeIsTheWord : Prop :=
  ∀ (w : CmdWord) (i : Instr), decode w = .command i → encode i = w

/-- What decoding does with every word, by its fields. A word whose operation code is above 9 is illegal with code 1. Else, if Z
or a field its command does not use is not zero, it is illegal with code 2. Else it decodes to the command that has exactly the
fields of the word. (R71, R74, R75, R76, 30_encoding.md section 4) -/
def Obligations.DecodeRefusesByOpcodeThenByFields : Prop :=
  ∀ w : CmdWord,
    (9 < (Fields.ofWord w).op.toNat → decode w = .illegal .illegalOp) ∧
    ((Fields.ofWord w).op.toNat ≤ 9 → (Fields.ofWord w).wellFormed = false → decode w = .illegal .reservedField) ∧
    ((Fields.ofWord w).wellFormed = true → ∃ i, decode w = .command i ∧ i.fields = Fields.ofWord w)

/-- The worked encodings of R79. Each of the eight words of R79 is the word of the command it stands for and decodes to it, WR
0, FMDA, -300 from its assembler line included; the bytes of 0x18091234, lowest address first, are 34 12 09 18. (R79) -/
def Obligations.WorkedEncodingsDecode : Prop :=
  encode (.wr 2 0x09 0x1234) = 0x18091234#32 ∧ decode 0x18091234#32 = .command (.wr 2 0x09 0x1234) ∧
  encode (.rd 3 0x10) = 0x2C100000#32 ∧ decode 0x2C100000#32 = .command (.rd 3 0x10) ∧
  encode (.rdg 1) = 0x30010000#32 ∧ decode 0x30010000#32 = .command (.rdg 1) ∧
  encode (.kon 1 0x2A) = 0x4400002A#32 ∧ decode 0x4400002A#32 = .command (.kon 1 0x2A) ∧
  encode (.koff 0x2A) = 0x5000002A#32 ∧ decode 0x5000002A#32 = .command (.koff 0x2A) ∧
  encode (.refr 3) = 0x8C000000#32 ∧ decode 0x8C000000#32 = .command (.refr 3) ∧
  encode .sync = 0x90000000#32 ∧ decode 0x90000000#32 = .command .sync ∧
  encode (assemble (.wr 0 (.name .fmda) (-300))) = 0x1005FED4#32 ∧
  decode 0x1005FED4#32 = .command (assemble (.wr 0 (.name .fmda) (-300))) ∧
  bytesOfWord 0x18091234#32 = [0x34, 0x12, 0x09, 0x18]

/-- A step runs the decoded command. When the engine has the turn (an empty schedule, or an engine turn at its head) and the
presented word decodes to a command, the step is the execution of that command, on the state without the turn it took. (R15,
R44, R62, R75, 10_state.md section 3) -/
def Obligations.StepRunsThePresentedCommand : Prop :=
  ∀ (s : State) (w : CmdWord) (rest : List CmdWord) (i : Instr), s.cmds = w :: rest → decode w = .command i →
    (s.schedule = [] → step s = exec i s) ∧
    (∀ ts, s.schedule = .engine :: ts → step s = exec i { s with schedule := ts })

/-- An illegal word changes nothing but the error record. When the engine has the turn and the presented word is illegal with
code c, the step answers a state in which only the error record changed (it keeps the first code since reset), the outcome error
c was delivered, and the next word is presented. (R75, R211, R220, 60_exceptions.md section 1) -/
def Obligations.IllegalWordsAreRefusedWithoutEffect : Prop :=
  ∀ (s : State) (w : CmdWord) (rest : List CmdWord) (c : CmdError), s.cmds = w :: rest → decode w = .illegal c →
    (s.schedule = [] → ∃ t, step s = .next t ∧ RefusedWith c s t) ∧
    (∀ ts, s.schedule = .engine :: ts → ∃ t, step s = .next t ∧ RefusedWith c { s with schedule := ts } t)

/-- A sample-boundary event sets SDUE and nothing else. Whenever the schedule gives the turn to the sample timer, in any state,
a held SYNC included, the step sets SDUE and changes nothing else but the turn it took. (R216) -/
def Obligations.BoundaryTurnSetsOnlySdue : Prop :=
  ∀ (s : State) (ts : List Turn), s.schedule = .boundary :: ts →
    step s = .next { s with sdue := true, schedule := ts }

/-- A second boundary before a SYNC is lost, and the second SYNC waits. A boundary event while SDUE is 1 leaves the state
unchanged but for the turn. After two boundaries with no SYNC between, the first of two SYNCs produces one sample (every note
phase and FM phase advances once) and the second is held, presented still. That the fourth step is one in which the second SYNC
goes on waiting is the model's reading (DEDUCED, log entry 6). (R150, R151, R218, 60_exceptions.md section 2) -/
def Obligations.MissedBoundaryIsLost : Prop :=
  (∀ (s : State) (ts : List Turn), s.sdue = true → s.schedule = .boundary :: ts →
    step s = .next { s with schedule := ts }) ∧
  (∀ (s : State) (ts : List Turn) (rest : List CmdWord),
    s.schedule = .boundary :: .boundary :: .engine :: .engine :: ts → s.cmds = encode .sync :: encode .sync :: rest →
    ∃ t, runSteps 4 s = .next t ∧ t.cmds = encode .sync :: rest ∧ t.outcomes = s.outcomes ++ [.done] ∧ t.sdue = false ∧ t.held = true ∧
      ∀ v, t.reg v .phase = s.reg v .phase + s.reg v .inc ∧ t.reg v .fmphase = s.reg v .fmphase + s.reg v .fminc)

/-- The error record is sticky. From every state with ERR = 1, every step that is not a reset event leaves ERR = 1 and ERRCODE
as it was: no command clears the record, and later errors are dropped from it. (R211, R221, R42, 60_exceptions.md section 1) -/
def Obligations.OnlyResetClearsTheErrorRecord : Prop :=
  ∀ s t : State, step s = .next t → (∀ ts, s.schedule ≠ .reset :: ts) → s.err = true →
    t.err = true ∧ t.errcode = s.errcode

/-- The error record is set by a refusal and holds its code. A step that sets ERR delivered an error outcome, and ERRCODE is its
code. Conversely, a step that delivers an error outcome leaves ERR = 1, with its code where there was no error before and the
earlier code otherwise. (R42, R211, R212, 60_exceptions.md section 1) -/
def Obligations.FirstRefusalSetsTheErrorRecord : Prop :=
  ∀ s t : State, step s = .next t →
    (s.err = false → t.err = true → ∃ c, t.outcomes = s.outcomes ++ [.error c] ∧ t.errcode = errorCode c) ∧
    (∀ c, t.outcomes = s.outcomes ++ [.error c] →
      t.err = true ∧ t.errcode = if s.err then s.errcode else errorCode c)

/-- SDUE is cleared, and DUTY written, by a SYNC that runs or a reset only. If a step clears SDUE or changes DUTY, it was a
reset event, or the presented word was a SYNC, SDUE was 1, and the SYNC finished. (R41, R42, R161, R217, 60_exceptions.md
section 2) -/
def Obligations.OnlySyncOrResetClearsSdueOrWritesDuty : Prop :=
  ∀ s t : State, step s = .next t → (s.sdue = true ∧ t.sdue = false) ∨ t.duty ≠ s.duty →
    (∃ ts, s.schedule = .reset :: ts) ∨ (∃ rest, s.cmds = encode .sync :: rest ∧ s.sdue = true ∧ t.cmds = rest)

/-- Every voice register is written only by the commands its rule names. For every command, state, voice and register: if the
command is not one of those the register's rule lists under Written by (for WR, KON and REFR: of that voice), executing it
leaves the register as it was. (10_state.md section 1, 20_memory.md section 1) -/
def Obligations.CommandsWriteOnlyTheirRegisters : Prop :=
  ∀ (i : Instr) (s t : State) (v : VoiceIx) (r : VReg), exec i s = .next t → mayWrite i v r = false →
    t.reg v r = s.reg v r

/-- A boundary event before or after a command gives the same state. For every command other than SYNC and RDG STATUS and every
state, executing the command and then taking a sample-boundary event gives the same state, outcomes included, as the event first
and the command then. (R63, R219, 20_memory.md section 6) -/
def Obligations.BoundaryCommutesWithCommands : Prop :=
  ∀ (i : Instr) (s : State), i ≠ .sync → i ≠ .rdg 0 →
    ∃ t, exec i s = .next t ∧ exec i s.boundary = .next t.boundary

/-- Every command finishes, but a SYNC without a pending boundary. Every command other than SYNC, and a SYNC with SDUE = 1,
finishes when it is executed: it leaves the stream and delivers exactly one outcome, which is not a hold. (R15, R95, R151,
40_register_access.md) -/
def Obligations.OnlySyncWaits : Prop :=
  ∀ (i : Instr) (s : State), i ≠ .sync ∨ s.sdue = true →
    ∃ t o, exec i s = .next t ∧ o ≠ .hold ∧ t.cmds = s.cmds.tail ∧ t.outcomes = s.outcomes ++ [o]

/-- An accepted WR writes its register, whole, and nothing else. WR v, r, imm with a register number r of 0x00 to 0x10 and any
value, but at most 4 for STAGE (0x08) and at most 255 for AMPBASE and KEY (0x0E, 0x0F), finishes done; the register then reads
imm; every other register of every voice, reserved numbers included, reads as before; nothing outside the banks changes. (R51,
R53, R54, R91, 40_register_access.md) -/
def Obligations.WrWritesOneRegister : Prop :=
  ∀ (s : State) (v : VoiceIx) (r : RegNum) (imm : U16), r.toNat ≤ 0x10 → (r = 0x08 → imm.toNat ≤ 4) →
    (r = 0x0E ∨ r = 0x0F → imm.toNat ≤ 255) →
    ∃ t, exec (.wr v r imm) s = .next t ∧ FinishedWith .done s t ∧ t.readVreg v r = some imm ∧
      ∀ w q, (w, q) ≠ (v, r) → t.readVreg w q = s.readVreg w q

/-- When WR is refused, with which code, and with no other effect. WR to a register number above 0x12 is refused with code 3; to
AMP or FMAMP with code 4, whatever the value; STAGE with a value above 4, and AMPBASE or KEY with a value above 255, with code
5. A refusal changes the error record alone. (R51, R91, R211, R213, 40_register_access.md) -/
def Obligations.WrRefusalsInOrder : Prop :=
  ∀ (s : State) (v : VoiceIx) (r : RegNum) (imm : U16),
    (0x12 < r.toNat → ∃ t, exec (.wr v r imm) s = .next t ∧ RefusedWith .badReg s t) ∧
    (r = 0x11 ∨ r = 0x12 → ∃ t, exec (.wr v r imm) s = .next t ∧ RefusedWith .roWrite s t) ∧
    (r = 0x08 → 4 < imm.toNat → ∃ t, exec (.wr v r imm) s = .next t ∧ RefusedWith .badValue s t) ∧
    (r = 0x0E ∨ r = 0x0F → 255 < imm.toNat → ∃ t, exec (.wr v r imm) s = .next t ∧ RefusedWith .badValue s t)

/-- RD responds with its register and changes no state, or is refused. RD v, r with r of 0x00 to 0x12 finishes with the value
that register number reads as on the read-data port and changes no register; with r above 0x12 it is refused with code 3 and
delivers no value. (R53, R55, R92, R93, 40_register_access.md) -/
def Obligations.RdRespondsOneRegister : Prop :=
  ∀ (s : State) (v : VoiceIx),
    (∀ r : RegNum, r.toNat ≤ 0x12 → ∃ t val, exec (.rd v r) s = .next t ∧ s.readVreg v r = some val ∧
      FinishedWith (.respond val) s t ∧ t.voices = s.voices ∧ t.responses = s.responses ++ [val]) ∧
    (∀ r : RegNum, 0x12 < r.toNat → ∃ t, exec (.rd v r) s = .next t ∧ RefusedWith .badReg s t ∧ t.responses = s.responses)

/-- RDG responds with STATUS or DUTY and changes no state, or is refused. RDG 0 responds with the word that has SDUE at bit 0,
ERR at bit 1, ERRCODE at bits 7:4 and zero elsewhere; RDG 1 responds with DUTY; neither changes a register, SDUE, ERR or
ERRCODE. RDG of a number above 1 is refused with code 3 and delivers no value. (R42, R52, R55, R94, 40_register_access.md) -/
def Obligations.RdgRespondsOneGlobalRegister : Prop :=
  ∀ s : State,
    (∃ t val, exec (.rdg 0) s = .next t ∧ FinishedWith (.respond val) s t ∧ t.voices = s.voices ∧
      val.toNat = s.sdue.toNat + 2 * s.err.toNat + 16 * s.errcode.toNat) ∧
    (∃ t, exec (.rdg 1) s = .next t ∧ FinishedWith (.respond s.duty) s t ∧ t.voices = s.voices) ∧
    (∀ g : RegNum, 1 < g.toNat → ∃ t, exec (.rdg g) s = .next t ∧ RefusedWith .badReg s t ∧ t.responses = s.responses)

/-- NOP finishes and changes nothing. NOP finishes done from every state; the banks, the global registers, the pending boundary
and the error record are as before, and the next command is presented. (R44, R90, 40_register_access.md) -/
def Obligations.NopChangesNothing : Prop :=
  ∀ s : State, ∃ t, exec .nop s = .next t ∧ FinishedWith .done s t ∧ t.voices = s.voices

/-- What every register reads as, by its type, zero-extended. In every state and for every voice: the fifteen 16-bit registers
read as the stored pattern; AMPBASE, KEY and AMP read as the number of the stored byte, the upper byte zero; STAGE reads as the
code of the stored stage, 0 to 4. The numbers 0x00 to 0x12 read as PHASE, INC, FMPHASE, FMINC, FMA0, FMDA, FMEXP, FMDEC, STAGE,
ENV, ATK, DCY, SUS, RLS, AMPBASE, KEY, AGE, AMP and FMAMP in this order, these are the numbers the assembler has for the names,
and the numbers 0x13 to 0x1F read as none. (R29, R51, R53, R60, 20_memory.md section 2) -/
def Obligations.ReadsAreZeroExtended : Prop :=
  ∀ (s : State) (v : VoiceIx),
    (s.reg v .phase = (s.voice v).phase ∧ s.reg v .inc = (s.voice v).inc ∧ s.reg v .fmphase = (s.voice v).fmphase ∧
      s.reg v .fminc = (s.voice v).fminc ∧ s.reg v .fma0 = (s.voice v).fma0 ∧ s.reg v .fmda = (s.voice v).fmda ∧
      s.reg v .fmexp = (s.voice v).fmexp ∧ s.reg v .fmdec = (s.voice v).fmdec ∧ s.reg v .env = (s.voice v).env ∧
      s.reg v .atk = (s.voice v).atk ∧ s.reg v .dcy = (s.voice v).dcy ∧ s.reg v .sus = (s.voice v).sus ∧
      s.reg v .rls = (s.voice v).rls ∧ s.reg v .age = (s.voice v).age ∧ s.reg v .fmamp = (s.voice v).fmamp) ∧
    ((s.reg v .ampbase).toNat = (s.voice v).ampbase.toNat ∧ (s.reg v .key).toNat = (s.voice v).key.toNat ∧
      (s.reg v .amp).toNat = (s.voice v).amp.toNat) ∧
    ((s.reg v .stage).toNat =
        match (s.voice v).stage with
        | .idle => 0 | .attack => 1 | .decay => 2 | .sustain => 3 | .release => 4) ∧
    (s.readVreg v 0x00 = some (s.reg v .phase) ∧ s.readVreg v 0x01 = some (s.reg v .inc) ∧
      s.readVreg v 0x02 = some (s.reg v .fmphase) ∧ s.readVreg v 0x03 = some (s.reg v .fminc) ∧
      s.readVreg v 0x04 = some (s.reg v .fma0) ∧ s.readVreg v 0x05 = some (s.reg v .fmda) ∧
      s.readVreg v 0x06 = some (s.reg v .fmexp) ∧ s.readVreg v 0x07 = some (s.reg v .fmdec) ∧
      s.readVreg v 0x08 = some (s.reg v .stage) ∧ s.readVreg v 0x09 = some (s.reg v .env) ∧
      s.readVreg v 0x0A = some (s.reg v .atk) ∧ s.readVreg v 0x0B = some (s.reg v .dcy) ∧
      s.readVreg v 0x0C = some (s.reg v .sus) ∧ s.readVreg v 0x0D = some (s.reg v .rls) ∧
      s.readVreg v 0x0E = some (s.reg v .ampbase) ∧ s.readVreg v 0x0F = some (s.reg v .key) ∧
      s.readVreg v 0x10 = some (s.reg v .age) ∧ s.readVreg v 0x11 = some (s.reg v .amp) ∧
      s.readVreg v 0x12 = some (s.reg v .fmamp)) ∧
    (∀ r : VReg, s.readVreg v (vregNumber r) = some (s.reg v r)) ∧
    (∀ n : RegNum, s.readVreg v n = none ↔ 0x12 < n.toNat)

/-- KON writes seven registers of one voice and nothing else. KON v, key finishes done from every state, whatever the stage of
voice v: PHASE, FMPHASE, ENV and AGE of v become 0, STAGE Attack, FMEXP 0xFFFF and KEY the key; every other register of v (the
ten parameters and both latches) and every register of the other voices is unchanged, and so is everything outside the banks.
(R100, R101, 41_voice_control.md) -/
def Obligations.KonClaimsOneVoice : Prop :=
  ∀ (s : State) (v : VoiceIx) (key : U8),
    ∃ t, exec (.kon v key) s = .next t ∧ FinishedWith .done s t ∧
      t.reg v .phase = 0 ∧ t.reg v .fmphase = 0 ∧ t.reg v .stage = 1 ∧ t.reg v .env = 0 ∧ t.reg v .fmexp = 0xFFFF ∧
      t.reg v .age = 0 ∧ t.reg v .key = key.setWidth 16 ∧
      (∀ r ∈ [VReg.inc, .fminc, .fma0, .fmda, .fmdec, .atk, .dcy, .sus, .rls, .ampbase, .amp, .fmamp],
        t.reg v r = s.reg v r) ∧
      (∀ w r, w ≠ v → t.reg w r = s.reg w r)

/-- KOFF moves every voice that holds the key to Release and changes nothing else. KOFF key finishes done from every state:
every voice whose KEY is key, in whatever stage, idle included, is in Release; its other registers, ENV among them, are
unchanged; every register of a voice that holds another key is unchanged, and so is everything outside the banks. Where no voice
matches, nothing changes. (R102, R103, 41_voice_control.md) -/
def Obligations.KoffReleasesEveryHolder : Prop :=
  ∀ (s : State) (key : U8),
    ∃ t, exec (.koff key) s = .next t ∧ FinishedWith .done s t ∧
      ∀ v, (s.reg v .key = key.setWidth 16 → t.reg v .stage = 4 ∧ ∀ r, r ≠ .stage → t.reg v r = s.reg v r) ∧
        (s.reg v .key ≠ key.setWidth 16 → ∀ r, t.reg v r = s.reg v r)

/-- ETICK leaves stage and level in Idle and in Sustain. ETICK finishes, and a voice that was in Idle or in Sustain keeps its
stage and its level, whatever the level and the rates are. (R112, R115, 42_envelope.md section 2) -/
def Obligations.EtickLeavesIdleAndSustain : Prop :=
  ∀ (s : State) (v : VoiceIx), s.reg v .stage = 0 ∨ s.reg v .stage = 3 →
    ∃ t, exec .etick s = .next t ∧ FinishedWith .done s t ∧ t.reg v .stage = s.reg v .stage ∧ t.reg v .env = s.reg v .env

/-- ETICK in Attack. With e = ENV and a = ATK of a voice in Attack before ETICK: if 65535 - e <= a the level becomes 65535 and
the stage Decay; else the level becomes e + a, which is below 65535, and the voice stays in Attack; the level rises strictly
while a > 0 and the voice stays in Attack. (R113) -/
def Obligations.EtickInAttack : Prop :=
  ∀ (s : State) (v : VoiceIx), s.reg v .stage = 1 →
    ∃ t, exec .etick s = .next t ∧ FinishedWith .done s t ∧
      (65535 - (s.reg v .env).toNat ≤ (s.reg v .atk).toNat → (t.reg v .env).toNat = 65535 ∧ t.reg v .stage = 2) ∧
      ((s.reg v .atk).toNat < 65535 - (s.reg v .env).toNat →
        (t.reg v .env).toNat = (s.reg v .env).toNat + (s.reg v .atk).toNat ∧ (t.reg v .env).toNat < 65535 ∧
        t.reg v .stage = 1) ∧
      (0 < (s.reg v .atk).toNat → t.reg v .stage = 1 → (s.reg v .env).toNat < (t.reg v .env).toNat)

/-- ETICK in Decay. With e = ENV, d = DCY and s = SUS of a voice in Decay before ETICK: if e <= s + d, the sum exact, the level
becomes s and the stage Sustain; else the level becomes e - d, which is above s, and the voice stays in Decay. (R114) -/
def Obligations.EtickInDecay : Prop :=
  ∀ (s : State) (v : VoiceIx), s.reg v .stage = 2 →
    ∃ t, exec .etick s = .next t ∧ FinishedWith .done s t ∧
      ((s.reg v .env).toNat ≤ (s.reg v .sus).toNat + (s.reg v .dcy).toNat →
        t.reg v .env = s.reg v .sus ∧ t.reg v .stage = 3) ∧
      ((s.reg v .sus).toNat + (s.reg v .dcy).toNat < (s.reg v .env).toNat →
        (t.reg v .env).toNat = (s.reg v .env).toNat - (s.reg v .dcy).toNat ∧
        (s.reg v .sus).toNat < (t.reg v .env).toNat ∧ t.reg v .stage = 2)

/-- ETICK in Release. With e = ENV and r = RLS of a voice in Release before ETICK: if e <= r the level becomes 0 and the stage
Idle, so that the voice is idle; else the level becomes e - r, which is above 0, and the voice stays in Release. (R116) -/
def Obligations.EtickInRelease : Prop :=
  ∀ (s : State) (v : VoiceIx), s.reg v .stage = 4 →
    ∃ t, exec .etick s = .next t ∧ FinishedWith .done s t ∧
      ((s.reg v .env).toNat ≤ (s.reg v .rls).toNat →
        t.reg v .env = 0 ∧ t.reg v .stage = 0 ∧ (t.voice v).isIdle = true) ∧
      ((s.reg v .rls).toNat < (s.reg v .env).toNat →
        (t.reg v .env).toNat = (s.reg v .env).toNat - (s.reg v .rls).toNat ∧ 0 < (t.reg v .env).toNat ∧
        t.reg v .stage = 4)

/-- ETICK ages every voice and touches no register but STAGE, ENV and AGE. ETICK finishes done from every state; AGE of every
voice, in every stage, becomes AGE + 1 modulo 65536; every register of every voice other than STAGE, ENV and AGE is unchanged,
and so is everything outside the banks. (R110, R111, R117, R118, 42_envelope.md section 1) -/
def Obligations.EtickAgesAndChangesNothingElse : Prop :=
  ∀ s : State, ∃ t, exec .etick s = .next t ∧ FinishedWith .done s t ∧
    ∀ v, (t.reg v .age).toNat = ((s.reg v .age).toNat + 1) % 65536 ∧
      ∀ r, r ≠ .stage → r ≠ .env → r ≠ .age → t.reg v r = s.reg v r

/-- ETICK's result for a voice depends on that voice alone. From two states whose voice v is the same, whatever else differs
between them, ETICK leaves voice v the same. (R118, 42_envelope.md section 2) -/
def Obligations.EtickTreatsVoicesIndependently : Prop :=
  ∀ (s s' : State) (v : VoiceIx), (∀ r, s.reg v r = s'.reg v r) →
    ∃ t t', exec .etick s = .next t ∧ exec .etick s' = .next t' ∧ ∀ r, t.reg v r = t'.reg v r

/-- The only stage changes any command makes, WR to STAGE aside. If a command other than a WR to STAGE of voice v changes the
stage of v, it is a KON of v (to Attack), a KOFF of the key v holds (to Release), or an ETICK that moves Attack to Decay with
65535 - ENV <= ATK, Decay to Sustain with ENV <= SUS + DCY, or Release to Idle with ENV <= RLS. (R119, 42_envelope.md section 3)
-/
def Obligations.StageChangesAreTheTable : Prop :=
  ∀ (i : Instr) (s t : State) (v : VoiceIx), exec i s = .next t → (∀ imm, i ≠ .wr v 0x08 imm) →
    t.reg v .stage ≠ s.reg v .stage →
    (∃ key, i = .kon v key ∧ t.reg v .stage = 1) ∨
    (∃ key, i = .koff key ∧ s.reg v .key = key.setWidth 16 ∧ t.reg v .stage = 4) ∨
    (i = .etick ∧ s.reg v .stage = 1 ∧ t.reg v .stage = 2 ∧ 65535 - (s.reg v .env).toNat ≤ (s.reg v .atk).toNat) ∨
    (i = .etick ∧ s.reg v .stage = 2 ∧ t.reg v .stage = 3 ∧
      (s.reg v .env).toNat ≤ (s.reg v .sus).toNat + (s.reg v .dcy).toNat) ∨
    (i = .etick ∧ s.reg v .stage = 4 ∧ t.reg v .stage = 0 ∧ (s.reg v .env).toNat ≤ (s.reg v .rls).toNat)

/-- An attack lasts ceil(65535 / ATK) ticks exactly. From a voice in Attack at level 0 with ATK = a >= 1, over any run of
boundary events and commands in which every SYNC finds its boundary pending and so runs (a held one would stop the commands
behind it, R151), and every command is an ETICK, leaves the voice's envelope registers alone, or is a KOFF of a key the voice
does not hold at that point, n of them ETICK: while n < ceil(65535 / a) the voice is in Attack with ENV = n * a, and for n =
ceil(65535 / a) it is in Decay with ENV = 65535. (R113, R120, R102, R151, 42_envelope.md section 4) -/
def Obligations.AttackLastsItsNumberOfTicks : Prop :=
  ∀ (ls : List ListingLine) (s : State) (v : VoiceIx) (a : Nat), envelopeRun v ls s = true →
    s.reg v .stage = 1 → s.reg v .env = 0 → (s.reg v .atk).toNat = a → 1 ≤ a →
    ∃ t, execLines ls s = .next t ∧
      (ls.count (.command .etick) < (65535 + a - 1) / a →
        t.reg v .stage = 1 ∧ (t.reg v .env).toNat = ls.count (.command .etick) * a) ∧
      (ls.count (.command .etick) = (65535 + a - 1) / a → t.reg v .stage = 2 ∧ (t.reg v .env).toNat = 65535)

/-- A decay lasts max(1, ceil((65535 - SUS) / DCY)) ticks exactly. From a voice in Decay at level 65535 with DCY = d >= 1 and
SUS = u, over any run of boundary events and commands in which every SYNC finds its boundary pending and so runs (a held one
would stop the commands behind it, R151), and every command is an ETICK, leaves the voice's envelope registers alone, or is a
KOFF of a key the voice does not hold at that point, n of them ETICK: while n < max(1, ceil((65535 - u) / d)) the voice is in
Decay with ENV = 65535 - n * d, above u once n >= 1, and for n equal to it the voice is in Sustain with ENV = u. (R114, R121,
R102, R151, 42_envelope.md section 4) -/
def Obligations.DecayLastsItsNumberOfTicks : Prop :=
  ∀ (ls : List ListingLine) (s : State) (v : VoiceIx) (d u : Nat), envelopeRun v ls s = true →
    s.reg v .stage = 2 → s.reg v .env = 0xFFFF → (s.reg v .dcy).toNat = d → (s.reg v .sus).toNat = u → 1 ≤ d →
    ∃ t, execLines ls s = .next t ∧
      (ls.count (.command .etick) < max 1 ((65535 - u + d - 1) / d) →
        t.reg v .stage = 2 ∧ (t.reg v .env).toNat = 65535 - ls.count (.command .etick) * d ∧
        (1 ≤ ls.count (.command .etick) → u < (t.reg v .env).toNat)) ∧
      (ls.count (.command .etick) = max 1 ((65535 - u + d - 1) / d) → t.reg v .stage = 3 ∧ (t.reg v .env).toNat = u)

/-- A release lasts max(1, ceil(L / RLS)) ticks exactly. From a voice in Release at level L with RLS = r >= 1, over any run of
boundary events and commands in which every SYNC finds its boundary pending and so runs (a held one would stop the commands
behind it, R151), and every command is an ETICK, leaves the voice's envelope registers alone, or is a KOFF of a key the voice
does not hold at that point, n of them ETICK: while n < max(1, ceil(L / r)) the voice is in Release with ENV = L - n * r, above
0 once n >= 1, and for n equal to it the voice is in Idle with ENV = 0. (R116, R122, R102, R151, 42_envelope.md section 4) -/
def Obligations.ReleaseLastsItsNumberOfTicks : Prop :=
  ∀ (ls : List ListingLine) (s : State) (v : VoiceIx) (l r : Nat), envelopeRun v ls s = true →
    s.reg v .stage = 4 → (s.reg v .env).toNat = l → (s.reg v .rls).toNat = r → 1 ≤ r →
    ∃ t, execLines ls s = .next t ∧
      (ls.count (.command .etick) < max 1 ((l + r - 1) / r) →
        t.reg v .stage = 4 ∧ (t.reg v .env).toNat = l - ls.count (.command .etick) * r ∧
        (1 ≤ ls.count (.command .etick) → 0 < (t.reg v .env).toNat)) ∧
      (ls.count (.command .etick) = max 1 ((l + r - 1) / r) → t.reg v .stage = 0 ∧ t.reg v .env = 0)

/-- The direction the level moves in, by stage. Across an ETICK the level of a voice does not fall in Attack, does not rise in
Release, is constant in Sustain and Idle, and in Decay does not rise and stays at or above SUS, provided it was at or above SUS
before. (R49, R123, 42_envelope.md section 4) -/
def Obligations.EnvelopeIsMonotone : Prop :=
  ∀ (s : State) (v : VoiceIx), ∃ t, exec .etick s = .next t ∧
    (s.reg v .stage = 1 → (s.reg v .env).toNat ≤ (t.reg v .env).toNat) ∧
    (s.reg v .stage = 4 → (t.reg v .env).toNat ≤ (s.reg v .env).toNat) ∧
    (s.reg v .stage = 0 ∨ s.reg v .stage = 3 → t.reg v .env = s.reg v .env) ∧
    (s.reg v .stage = 2 → (s.reg v .sus).toNat ≤ (s.reg v .env).toNat →
      (s.reg v .sus).toNat ≤ (t.reg v .env).toNat ∧ (t.reg v .env).toNat ≤ (s.reg v .env).toNat)

/-- FMDK decays the FM exponential of every voice and changes nothing else. FMDK finishes done from every state; FMEXP of every
voice, idle or not, becomes x - floor(x * k / 65536) with x = FMEXP and k = FMDEC before; every other register of every voice is
unchanged, and so is everything outside the banks. (R130, 43_fm_parameters.md section 1) -/
def Obligations.FmdkDecaysEveryVoice : Prop :=
  ∀ s : State, ∃ t, exec .fmdk s = .next t ∧ FinishedWith .done s t ∧
    ∀ v, (t.reg v .fmexp).toNat =
        (s.reg v .fmexp).toNat - (s.reg v .fmexp).toNat * (s.reg v .fmdec).toNat / 65536 ∧
      ∀ r, r ≠ .fmexp → t.reg v r = s.reg v r

/-- The FM exponential never rises and never decays to zero. Over any run of boundary events and commands of which FMDK is the
only one that may write FMEXP of voice v, FMEXP of v does not rise, and if it was at least 1 it stays at least 1. A SYNC that is
held ends the run (R151). (R27, R49, R131, R151, 43_fm_parameters.md section 1) -/
def Obligations.FmExponentialNeverRisesNorDies : Prop :=
  ∀ (ls : List ListingLine) (s : State) (v : VoiceIx),
    (∀ l ∈ ls, l = .boundary ∨ l = .command .fmdk ∨ ∃ i, l = .command i ∧ mayWrite i v .fmexp = false) →
    ∃ t, execLines ls s = .next t ∧ (t.reg v .fmexp).toNat ≤ (s.reg v .fmexp).toNat ∧
      (1 ≤ (s.reg v .fmexp).toNat → 1 ≤ (t.reg v .fmexp).toNat)

/-- REFR recomputes the two latches of one voice and changes nothing else. REFR v finishes done from every state; AMP of v
becomes floor(AMPBASE * floor(ENV / 256) / 256), at most 254; FMAMP of v becomes (FMA0 + floor(d * FMEXP / 65536)) mod 65536
with d = FMDA read as a signed number; every other register of v and every register of the other voices is unchanged, and so is
everything outside the banks. (R135, R136, R137, 43_fm_parameters.md section 2) -/
def Obligations.RefrRecomputesTheLatches : Prop :=
  ∀ (s : State) (v : VoiceIx), ∃ t, exec (.refr v) s = .next t ∧ FinishedWith .done s t ∧
    (t.reg v .amp).toNat = (s.reg v .ampbase).toNat * ((s.reg v .env).toNat / 256) / 256 ∧ (t.reg v .amp).toNat ≤ 254 ∧
    ((t.reg v .fmamp).toNat : Int) =
      ((s.reg v .fma0).toNat + (s.reg v .fmda).toInt * (s.reg v .fmexp).toNat / 65536) % 65536 ∧
    (∀ r, r ≠ .amp → r ≠ .fmamp → t.reg v r = s.reg v r) ∧
    (∀ w r, w ≠ v → t.reg w r = s.reg w r)

/-- Corner cases of the FM amplitude. After REFR v with d = FMDA signed and x = FMEXP: at x = 65535 the term is d - 1 for d >= 1
and d for d <= 0; at x = 1 it is -1 for d < 0 and 0 for d >= 0; at x = 0 it is 0 for every d. FMAMP is FMA0 plus the term,
modulo 65536. (R137, R138, 43_fm_parameters.md section 2) -/
def Obligations.FmAmplitudeCorners : Prop :=
  ∀ (s : State) (v : VoiceIx), ∃ t, exec (.refr v) s = .next t ∧
    (s.reg v .fmexp = 0xFFFF → 1 ≤ (s.reg v .fmda).toInt →
      ((t.reg v .fmamp).toNat : Int) = ((s.reg v .fma0).toNat + (s.reg v .fmda).toInt - 1) % 65536) ∧
    (s.reg v .fmexp = 0xFFFF → (s.reg v .fmda).toInt ≤ 0 →
      ((t.reg v .fmamp).toNat : Int) = ((s.reg v .fma0).toNat + (s.reg v .fmda).toInt) % 65536) ∧
    (s.reg v .fmexp = 1 → (s.reg v .fmda).toInt < 0 →
      ((t.reg v .fmamp).toNat : Int) = ((s.reg v .fma0).toNat - 1 : Int) % 65536) ∧
    (s.reg v .fmexp = 1 → 0 ≤ (s.reg v .fmda).toInt → t.reg v .fmamp = s.reg v .fma0) ∧
    (s.reg v .fmexp = 0 → t.reg v .fmamp = s.reg v .fma0)

/-- Two REFR of a voice equal one, and REFR of two voices commute. After REFR v twice every register of every voice is as after
REFR v once; REFR v then REFR w leaves the same state as REFR w then REFR v. (R135, 43_fm_parameters.md section 2) -/
def Obligations.RefrIsIdempotentAndCommutes : Prop :=
  ∀ (s : State) (v w : VoiceIx),
    (∃ t t', execSeq [.refr v] s = .next t ∧ execSeq [.refr v, .refr v] s = .next t' ∧ t'.voices = t.voices) ∧
    (∃ t, execSeq [.refr v, .refr w] s = .next t ∧ execSeq [.refr w, .refr v] s = .next t)

/-- SYNC is held while SDUE is 0 and changes no register. Executing SYNC with SDUE = 0 leaves the whole state, the stream
included, as it was, but for the note that the presented SYNC is held (the hidden state of R46 b): the SYNC stays presented,
nothing is delivered, no later command is executed. (R46, R150, R151, 44_sample_stage.md section 1) -/
def Obligations.SyncHoldsWithoutABoundary : Prop :=
  ∀ s : State, s.sdue = false → exec .sync s = .next { s with held := true }

/-- SYNC consumes the boundary, advances every phase and touches no other voice register. SYNC with SDUE = 1 finishes done and
clears SDUE; PHASE and FMPHASE of every voice, idle or not, advance by INC and FMINC modulo 65536; no SYNC is held after it;
every other voice register, ERR, ERRCODE, the configuration and the schedule are unchanged. (R150, R152, R153, R165,
44_sample_stage.md section 2) -/
def Obligations.SyncAdvancesEveryPhase : Prop :=
  ∀ s : State, s.sdue = true → ∃ t, exec .sync s = .next t ∧
    (∀ v, (t.reg v .phase).toNat = ((s.reg v .phase).toNat + (s.reg v .inc).toNat) % 65536 ∧
      (t.reg v .fmphase).toNat = ((s.reg v .fmphase).toNat + (s.reg v .fminc).toNat) % 65536 ∧
      ∀ r, r ≠ .phase → r ≠ .fmphase → t.reg v r = s.reg v r) ∧
    t.sdue = false ∧ t.held = false ∧ t.err = s.err ∧ t.errcode = s.errcode ∧ t.cfg = s.cfg ∧ t.schedule = s.schedule ∧
    t.cmds = s.cmds.tail ∧ t.outcomes = s.outcomes ++ [.done]

/-- The value SYNC writes to DUTY. SYNC with SDUE = 1 finishes with DUTY = (tdiv(acc, OUT_DIV) + OUT_MID) mod 65536, where acc
is the number in [-2^(ACC_W-1), 2^(ACC_W-1)) congruent to the sum of the four contributions modulo 2^ACC_W, and voice v
contributes SINE[floor((P + m * FMAMP) / 256) mod 256] * AMP, with P its advanced PHASE and m = SINE at the high byte of its
advanced FMPHASE (the form of R156 without the intermediate wrap). (R152, R154, R155, R156, R157, R158, R160, R161,
44_sample_stage.md section 3) -/
def Obligations.SyncWritesTheQuantisedMix : Prop :=
  ∀ s : State, s.sdue = true →
    let modulator (v : VoiceIx) : Int := sineAt s.cfg (hiByte (s.reg v .fmphase + s.reg v .fminc))
    let index (v : VoiceIx) : Int :=
      ((s.reg v .phase + s.reg v .inc).toNat + modulator v * (s.reg v .fmamp).toNat) / 256 % 256
    let contribution (v : VoiceIx) : Int := sineAt s.cfg (BitVec.ofInt 8 (index v)) * (s.reg v .amp).toNat
    ∃ t acc, exec .sync s = .next t ∧
      -2 ^ (s.cfg.accW - 1) ≤ acc ∧ acc < 2 ^ (s.cfg.accW - 1) ∧
      (2 ^ s.cfg.accW : Int) ∣ acc - (contribution 0 + contribution 1 + contribution 2 + contribution 3) ∧
      (t.duty.toNat : Int) = (Int.tdiv acc s.cfg.outDiv + s.cfg.outMid.toNat) % 65536

/-- The range of DUTY for the default configuration. With the default configuration, and every AMP at most 254 (which every step
keeps), a SYNC that runs leaves DUTY in [0, 1264] or in [0xFD10, 0xFFFF]. (R39, R58, R163, 44_sample_stage.md section 4) -/
def Obligations.DefaultDutyStaysInRange : Prop :=
  ∀ s : State, s.cfg = Config.default → s.sdue = true → (∀ v, (s.reg v .amp).toNat ≤ 254) →
    ∃ t, exec .sync s = .next t ∧ (t.duty.toNat ≤ 1264 ∨ 0xFD10 ≤ t.duty.toNat)

/-- With every amplitude latch 0 a SYNC writes the midpoint. For every configuration: a SYNC that runs while every AMP is 0
leaves DUTY = OUT_MID, whatever the phases, the stages and the levels are. (R157, R158, R160, R164, R241, 44_sample_stage.md
section 2) -/
def Obligations.SilenceIsTheMidpoint : Prop :=
  ∀ s : State, s.sdue = true → (∀ v, s.reg v .amp = 0) → ∃ t, exec .sync s = .next t ∧ t.duty = s.cfg.outMid

/-- The duty value does not depend on which voice is which. If the voices of one state are those of another in a different
order, in the same configuration, a SYNC that runs gives both the same DUTY, at every accumulator width. (R158, R164,
44_sample_stage.md section 4) -/
def Obligations.VoiceOrderDoesNotMatter : Prop :=
  ∀ (s s' : State) (σ : Equiv.Perm VoiceIx), s.sdue = true → s'.sdue = true → s'.cfg = s.cfg →
    (∀ v r, s'.reg v r = s.reg (σ v) r) →
    ∃ t t', exec .sync s = .next t ∧ exec .sync s' = .next t' ∧ t'.duty = t.duty

/-- A held SYNC stays held until a boundary and runs after it. With a SYNC presented, SDUE = 0 and a schedule of n engine turns,
a boundary, an engine turn and anything behind it: for the first n steps the SYNC stays presented, held from the first of them
on, and no register changes; after the boundary it is held still; and the engine turn behind the boundary runs it: after n + 2
steps it has finished, the boundary is consumed and every phase has advanced. That a held SYNC is a step that goes on waiting is
the model's reading (DEDUCED, log entry 6). (R46, R150, R151, R247, 44_sample_stage.md section 1) -/
def Obligations.HeldSyncRunsAfterABoundary : Prop :=
  ∀ (n : Nat) (s : State) (rest : List CmdWord) (ts : List Turn), s.cmds = encode .sync :: rest → s.sdue = false →
    s.schedule = List.replicate n .engine ++ .boundary :: .engine :: ts →
    (∀ k ≤ n, ∃ u, runSteps k s = .next u ∧ u.cmds = s.cmds ∧ u.voices = s.voices ∧ u.duty = s.duty ∧
      u.sdue = false ∧ u.err = s.err ∧ u.errcode = s.errcode ∧ u.outcomes = s.outcomes ∧ (1 ≤ k → u.held = true)) ∧
    (∃ u, runSteps (n + 1) s = .next u ∧ u.cmds = s.cmds ∧ u.voices = s.voices ∧ u.duty = s.duty ∧
      u.sdue = true ∧ (1 ≤ n → u.held = true)) ∧
    ∃ t, runSteps (n + 2) s = .next t ∧ t.cmds = rest ∧ t.outcomes = s.outcomes ++ [.done] ∧ t.sdue = false ∧
      t.held = false ∧ t.schedule = ts ∧
      ∀ v, t.reg v .phase = s.reg v .phase + s.reg v .inc ∧ t.reg v .fmphase = s.reg v .fmphase + s.reg v .fminc

/-- What the eleven commands of NOTEON leave. NOTEON v with an AMPBASE operand of at most 255 finishes with the ten parameter
registers of v at their operands, its phases, level and age 0, Attack, FMEXP 0xFFFF and the key, both latches of v as before,
every register of the other voices as before, and DUTY, SDUE, ERR and ERRCODE as before. (R78, R101, R196, 30_encoding.md
section 5) -/
def Obligations.NoteOnSetsUpOneVoice : Prop :=
  ∀ (s : State) (v : VoiceIx) (key : U8) (p : VoiceParams), p.ampbase.toNat ≤ 255 →
    ∃ t, execSeq (noteOn v key p) s = .next t ∧
      t.reg v .inc = p.inc ∧ t.reg v .fminc = p.fminc ∧ t.reg v .fma0 = p.fma0 ∧ t.reg v .fmda = p.fmda ∧
      t.reg v .fmdec = p.fmdec ∧ t.reg v .atk = p.atk ∧ t.reg v .dcy = p.dcy ∧ t.reg v .sus = p.sus ∧
      t.reg v .rls = p.rls ∧ t.reg v .ampbase = p.ampbase ∧
      t.reg v .phase = 0 ∧ t.reg v .fmphase = 0 ∧ t.reg v .stage = 1 ∧ t.reg v .env = 0 ∧ t.reg v .fmexp = 0xFFFF ∧
      t.reg v .age = 0 ∧ t.reg v .key = key.setWidth 16 ∧
      t.reg v .amp = s.reg v .amp ∧ t.reg v .fmamp = s.reg v .fmamp ∧
      (∀ w r, w ≠ v → t.reg w r = s.reg w r) ∧
      t.duty = s.duty ∧ t.sdue = s.sdue ∧ t.err = s.err ∧ t.errcode = s.errcode

/-- The voice the reference allocator chooses. For every key and every four voices as read: if some voice holds the key and is
non-idle, the lowest such voice is chosen; else, if some voice is idle, the lowest idle voice; else the lowest of the voices
with the largest age. (R190, R192, R193, R194, R195, 47_host_reference.md section 4) -/
def Obligations.AllocatorTriesTheThreeSteps : Prop :=
  ∀ (key : U8) (view : VoiceIx → VoiceView),
    let holds (v : VoiceIx) : Prop := (view v).key = key.setWidth 16 ∧ ¬((view v).stage = 0 ∧ (view v).env = 0)
    let idle (v : VoiceIx) : Prop := (view v).stage = 0 ∧ (view v).env = 0
    let n := chooseVoice key view
    ((∃ v, holds v) → holds n ∧ ∀ v, holds v → n ≤ v) ∧
    ((¬∃ v, holds v) → (∃ v, idle v) → idle n ∧ ∀ v, idle v → n ≤ v) ∧
    ((¬∃ v, holds v) → (¬∃ v, idle v) →
      (∀ v, (view v).age.toNat ≤ (view n).age.toNat) ∧ ∀ v, (view v).age = (view n).age → n ≤ v)

/-- The sixteen reads give the allocator the block's registers. From every state the allocator's sixteen RD commands finish,
change no voice register and none of DUTY, SDUE, ERR and ERRCODE, and the last sixteen values on the read-data port show KEY,
STAGE, ENV and AGE of each voice as they are. (R55, R92, R93, R190, 47_host_reference.md section 4) -/
def Obligations.AllocatorReadsShowTheVoices : Prop :=
  ∀ s : State, ∃ t, execSeq allocatorReads s = .next t ∧ t.voices = s.voices ∧ t.duty = s.duty ∧
    t.sdue = s.sdue ∧ t.err = s.err ∧ t.errcode = s.errcode ∧ ∀ v, viewOf t.responses v = s.view v

/-- An assignment of the reference host keeps one voice per sounding key. If no two non-idle voices hold the same key, then
after NOTEON of any key, with any parameters, on the voice the allocator chooses for it, no two non-idle voices hold the same
key. This is said of an assignment: a KON, KOFF or WR of another host can break it. (R192, R193, R195, R196,
47_host_reference.md section 4) -/
def Obligations.AllocationKeepsOneVoicePerKey : Prop :=
  ∀ (s : State) (key : U8) (p : VoiceParams), s.oneVoicePerKey →
    ∃ t, execSeq (noteOn (chooseVoice key s.view) key p) s = .next t ∧ t.oneVoicePerKey

/-- Of several key changes of a kind in one control tick the last examined wins. If a bit bound to a key or to the instrument-
select sentinel changed to pressed, and every later bit of the scan order that changed to pressed is bound to nothing, the press
event is that bit's binding; and the same of releases. (R184, R185, 47_host_reference.md section 2) -/
def Obligations.LastKeyChangeWins : Prop :=
  ∀ (t : HostTables) (current changed : BitVec 32) (before after : List (Fin 32)) (b : Fin 32) (e : KeyBinding),
    t.scanOrder = before ++ b :: after → changed.getLsbD b = true → t.keymap[b.val]? = some e → e ≠ .none →
    (current.getLsbD b = true →
      (∀ c ∈ after, changed.getLsbD c = true → current.getLsbD c = true → t.keymap[c.val]? = some .none) →
      (translateKeys t current changed).1 = e) ∧
    (current.getLsbD b = false →
      (∀ c ∈ after, changed.getLsbD c = true → current.getLsbD c = false → t.keymap[c.val]? = some .none) →
      (translateKeys t current changed).2 = e)

/-- Twelve instrument selections return to the same instrument. A pressed instrument-select sentinel advances the instrument
index by one modulo 12 and is remapped to the reference key; twelve of them leave the index as it was, and no other event
changes it. (R186, R187, 47_host_reference.md section 2) -/
def Obligations.InstrumentIndexWrapsAtTwelve : Prop :=
  ∀ (t : HostTables) (h : RefHost),
    (h.pressed = .instrumentSelect →
      ((h.resolveInstrument t).instrument.val = (h.instrument.val + 1) % 12 ∧
        (h.resolveInstrument t).pressed = .logicalKey t.refKey)) ∧
    (h.pressed ≠ .instrumentSelect → (h.resolveInstrument t).instrument = h.instrument) ∧
    ((fun g : RefHost => ({ g with pressed := .instrumentSelect } : RefHost).resolveInstrument t)^[12] h).instrument =
      h.instrument

/-- A control tick with no key event is CTICK. From the start of a control tick whose key events are both none (no new snapshot,
or one in which no key line changed or only lines bound to nothing), the reference host's next twenty turns send exactly the
sixteen commands of CTICK, in order, and bring it to the start of the next control tick. (R78, R181, R184, R201, R204,
47_host_reference.md section 5) -/
def Obligations.QuietControlTickIsCtick : Prop :=
  ∀ (t : HostTables) (responses : List U16) (h : RefHost), h.phase = .act 0 →
    (h.keys.updated = true → translateKeys t h.keys.current (h.keys.current ^^^ h.keys.previous) = (.none, .none)) →
    (hostTurns 20 t responses h).1 = ctick ∧ (hostTurns 20 t responses h).2.phase = .act 0
end

