-- ==== Sys2Proof/Laws/Encoding.lean ====
section
/-! SUPPORT. The bits of a command word: its fields put together and taken apart (spec/30_encoding.md R71). -/

namespace Sys2Proof

/-- The fields of a word put together from five. -/
theorem ofWord_append (op : BitVec 4) (v : BitVec 2) (z r : BitVec 5) (imm : BitVec 16) :
    Fields.ofWord (op ++ v ++ z ++ r ++ imm) = ⟨op, v, z, r, imm⟩ := by
  simp only [Fields.ofWord, Fields.mk.injEq]
  refine ⟨?_, ?_, ?_, ?_, ?_⟩ <;> ext j hj <;> simp <;> grind

/-- The fields of a KON or KOFF word, whose data field is a key code below eight zero bits (R72). -/
theorem ofWord_append_key (op : BitVec 4) (v : BitVec 2) (key : U8) :
    Fields.ofWord (op ++ v ++ 0#5 ++ 0#5 ++ 0#8 ++ key) = ⟨op, v, 0, 0, key.setWidth 16⟩ := by
  simp only [Fields.ofWord, Fields.mk.injEq]
  refine ⟨?_, ?_, ?_, ?_, ?_⟩ <;> ext j hj <;> simp [BitVec.getElem_setWidth] <;> grind

/-- A word is its five fields. -/
theorem append_fields (w : CmdWord) :
    w.extractLsb' 28 4 ++ w.extractLsb' 26 2 ++ w.extractLsb' 21 5 ++ w.extractLsb' 16 5 ++ w.extractLsb' 0 16 = w := by
  ext j hj
  simp
  grind

/-- Words with the same fields are the same (R71: the fields cover the word). -/
theorem Fields.ofWord_injective {a b : CmdWord} (h : Fields.ofWord a = Fields.ofWord b) : a = b := by
  simp only [Fields.ofWord, Fields.mk.injEq] at h
  rw [← append_fields a, ← append_fields b, h.1, h.2.1, h.2.2.1, h.2.2.2.1, h.2.2.2.2]

/-- The bytes of a word, least significant first, give the word back (R59). -/
theorem wordOfBytes_bytes (w : CmdWord) :
    wordOfBytes (w.extractLsb' 0 8) (w.extractLsb' 8 8) (w.extractLsb' 16 8) (w.extractLsb' 24 8) = w := by
  unfold wordOfBytes
  ext j hj
  simp
  grind

end Sys2Proof
end

