-- ==== Sys2Proof/Laws/Decode.lean ====
section
/-! SUPPORT. Decoding told by the fields of the word: the mask test of spec/30_encoding.md R73 and R75 is the must-be-zero check of R74. -/

namespace Sys2Proof

/-- The word put together from its fields (R71). -/
def Fields.word (f : Fields) : CmdWord := f.op ++ f.v ++ f.z ++ f.r ++ f.imm

theorem Fields.ofWord_word (f : Fields) : Fields.ofWord f.word = f := ofWord_append ..

theorem Fields.word_ofWord (w : CmdWord) : (Fields.ofWord w).word = w := append_fields w

/-- Masking a word masks each field. -/
theorem word_and (f m : Fields) :
    f.word &&& m.word = Fields.word ⟨f.op &&& m.op, f.v &&& m.v, f.z &&& m.z, f.r &&& m.r, f.imm &&& m.imm⟩ := by
  unfold Fields.word
  ext j hj
  simp [BitVec.getElem_and]
  grind

theorem Fields.word_injective {f g : Fields} (h : f.word = g.word) : f = g := by
  rw [← Fields.ofWord_word f, h, Fields.ofWord_word]

/-- The `match` and `mask` columns of R73 as fields, by the operation code. -/
def rowFields (op : BitVec 4) : Fields × Fields :=
  match op.toNat with
  | 0 => (⟨0, 0, 0, 0, 0⟩, ⟨0xF, 3, 0x1F, 0x1F, 0xFFFF⟩)
  | 1 => (⟨1, 0, 0, 0, 0⟩, ⟨0xF, 0, 0x1F, 0, 0⟩)
  | 2 => (⟨2, 0, 0, 0, 0⟩, ⟨0xF, 0, 0x1F, 0, 0xFFFF⟩)
  | 3 => (⟨3, 0, 0, 0, 0⟩, ⟨0xF, 3, 0x1F, 0, 0xFFFF⟩)
  | 4 => (⟨4, 0, 0, 0, 0⟩, ⟨0xF, 0, 0x1F, 0x1F, 0xFF00⟩)
  | 5 => (⟨5, 0, 0, 0, 0⟩, ⟨0xF, 3, 0x1F, 0x1F, 0xFF00⟩)
  | 6 => (⟨6, 0, 0, 0, 0⟩, ⟨0xF, 3, 0x1F, 0x1F, 0xFFFF⟩)
  | 7 => (⟨7, 0, 0, 0, 0⟩, ⟨0xF, 3, 0x1F, 0x1F, 0xFFFF⟩)
  | 8 => (⟨8, 0, 0, 0, 0⟩, ⟨0xF, 0, 0x1F, 0x1F, 0xFFFF⟩)
  | _ => (⟨9, 0, 0, 0, 0⟩, ⟨0xF, 3, 0x1F, 0x1F, 0xFFFF⟩)

/-- The upper half of a data field is zero exactly when the mask 0xFF00 leaves nothing. -/
theorem and_highByte_eq_zero (imm : U16) : imm &&& 0xFF00#16 = 0#16 ↔ imm.extractLsb' 8 8 = 0#8 := by
  constructor
  · intro h
    have h1 : (imm &&& 0xFF00#16).extractLsb' 8 8 = imm.extractLsb' 8 8 := by
      rw [BitVec.extractLsb'_and, show BitVec.extractLsb' 8 8 0xFF00#16 = BitVec.allOnes 8 by decide, BitVec.and_allOnes]
    rw [← h1, h]; decide
  · intro h
    ext j hj
    have := congrArg (fun x => x.getLsbD (j - 8)) h
    simp at this ⊢
    interval_cases j <;> simp_all

/-- A data field whose upper half is zero is its lower half (R72). -/
theorem setWidth_lowByte {imm : U16} (h : imm.extractLsb' 8 8 = 0#8) : (imm.extractLsb' 0 8).setWidth 16 = imm := by
  ext j hj
  have := congrArg (fun x => x.getLsbD (j - 8)) h
  simp [BitVec.getElem_setWidth] at this ⊢
  grind

/-- An operation code is one of the ten or reserved (R76). -/
theorem op_cases (op : BitVec 4) :
    op = 0 ∨ op = 1 ∨ op = 2 ∨ op = 3 ∨ op = 4 ∨ op = 5 ∨ op = 6 ∨ op = 7 ∨ op = 8 ∨ op = 9 ∨ 9 < op.toNat := by
  revert op; decide

/-- No command has a reserved operation code (R76). -/
theorem commandOf_reserved {op : BitVec 4} (h : 9 < op.toNat) (v : VoiceIx) (r : RegNum) (imm : U16) :
    commandOf op v r imm = none := by
  unfold commandOf
  split <;> first | rfl | omega

/-- Every other operation code selects a command. -/
theorem commandOf_isSome {op : BitVec 4} (h : op.toNat ≤ 9) (v : VoiceIx) (r : RegNum) (imm : U16) :
    ∃ i, commandOf op v r imm = some i := by
  obtain rfl | rfl | rfl | rfl | rfl | rfl | rfl | rfl | rfl | rfl | h' := op_cases op
  case inr.inr.inr.inr.inr.inr.inr.inr.inr.inr => omega
  all_goals exact ⟨_, rfl⟩

/-- A command's row is the one of its operation code (R73). -/
theorem row_of_commandOf {op : BitVec 4} {v : VoiceIx} {r : RegNum} {imm : U16} {i : Instr}
    (h : commandOf op v r imm = some i) : maskOf i = (rowFields op).2.word ∧ matchOf i = (rowFields op).1.word := by
  obtain rfl | rfl | rfl | rfl | rfl | rfl | rfl | rfl | rfl | rfl | h' := op_cases op
  case inr.inr.inr.inr.inr.inr.inr.inr.inr.inr => rw [commandOf_reserved h'] at h; cases h
  all_goals (cases h; exact ⟨rfl, rfl⟩)

/-- The mask test of a row is the must-be-zero check of its operation code (R74). -/
theorem maskTest_iff_wellFormed (f : Fields) (h : f.op.toNat ≤ 9) :
    f.word &&& (rowFields f.op).2.word = (rowFields f.op).1.word ↔ f.wellFormed = true := by
  obtain ⟨op, v, z, r, imm⟩ := f
  rw [word_and]
  have e4 (x : BitVec 4) : x &&& 0xF#4 = x := BitVec.and_allOnes (x := x)
  have e2 (x : BitVec 2) : x &&& 3#2 = x := BitVec.and_allOnes (x := x)
  have e5 (x : BitVec 5) : x &&& 0x1F#5 = x := BitVec.and_allOnes (x := x)
  have e16 (x : BitVec 16) : x &&& 0xFFFF#16 = x := BitVec.and_allOnes (x := x)
  have inj (f g : Fields) : f.word = g.word ↔ f = g := ⟨Fields.word_injective, congrArg Fields.word⟩
  rw [inj]
  obtain rfl | rfl | rfl | rfl | rfl | rfl | rfl | rfl | rfl | rfl | h' := op_cases op
  case inr.inr.inr.inr.inr.inr.inr.inr.inr.inr => simp only at h; omega
  all_goals
    simp [rowFields, e2, e4, e5, e16, and_highByte_eq_zero, Fields.wellFormed, Fields.opDefined, Fields.zIsZero,
      Fields.vAllowed, Fields.rAllowed, Fields.immAllowed]
  all_goals grind

/-- Decoding by the fields of the word (R75). -/
theorem decode_word (f : Fields) :
    decode f.word =
      match commandOf f.op f.v.toFin f.r f.imm with
      | none   => .illegal .illegalOp
      | some i => if f.wellFormed then .command i else .illegal .reservedField := by
  have h := Fields.ofWord_word f
  have hop : f.word.extractLsb' 28 4 = f.op := congrArg Fields.op h
  have hv : f.word.extractLsb' 26 2 = f.v := congrArg Fields.v h
  have hr : f.word.extractLsb' 16 5 = f.r := congrArg Fields.r h
  have himm : f.word.extractLsb' 0 16 = f.imm := congrArg Fields.imm h
  unfold decode
  rw [hop, hv, hr, himm]
  cases hc : commandOf f.op f.v.toFin f.r f.imm with
  | none => rfl
  | some i =>
    have hop : f.op.toNat ≤ 9 := by
      by_contra hn
      rw [commandOf_reserved (by omega)] at hc; cases hc
    have hrow := row_of_commandOf hc
    have := maskTest_iff_wellFormed f hop
    simp only [hrow.1, hrow.2, this]

end Sys2Proof
end

