-- ==== Sys2Proof/Laws/State.lean ====
section
/-! SUPPORT. What each update of the state does to each field: one lemma per field per update, so that no proof unfolds a record
update. -/

namespace Sys2Proof.Machine

variable (s : State)

/-! ### setVoice -/

@[simp] theorem setVoice_cfg (v : VoiceIx) (x : Voice) : (s.setVoice v x).cfg = s.cfg := rfl
@[simp] theorem setVoice_voices (v : VoiceIx) (x : Voice) : (s.setVoice v x).voices = s.voices.set v x := rfl
@[simp] theorem setVoice_duty (v : VoiceIx) (x : Voice) : (s.setVoice v x).duty = s.duty := rfl
@[simp] theorem setVoice_sdue (v : VoiceIx) (x : Voice) : (s.setVoice v x).sdue = s.sdue := rfl
@[simp] theorem setVoice_err (v : VoiceIx) (x : Voice) : (s.setVoice v x).err = s.err := rfl
@[simp] theorem setVoice_errcode (v : VoiceIx) (x : Voice) : (s.setVoice v x).errcode = s.errcode := rfl
@[simp] theorem setVoice_held (v : VoiceIx) (x : Voice) : (s.setVoice v x).held = s.held := rfl
@[simp] theorem setVoice_cmds (v : VoiceIx) (x : Voice) : (s.setVoice v x).cmds = s.cmds := rfl
@[simp] theorem setVoice_schedule (v : VoiceIx) (x : Voice) : (s.setVoice v x).schedule = s.schedule := rfl
@[simp] theorem setVoice_outcomes (v : VoiceIx) (x : Voice) : (s.setVoice v x).outcomes = s.outcomes := rfl

/-! ### mapVoices -/

@[simp] theorem mapVoices_cfg (f : Voice → Voice) : (s.mapVoices f).cfg = s.cfg := rfl
@[simp] theorem mapVoices_voices (f : Voice → Voice) : (s.mapVoices f).voices = s.voices.map f := rfl
@[simp] theorem mapVoices_duty (f : Voice → Voice) : (s.mapVoices f).duty = s.duty := rfl
@[simp] theorem mapVoices_sdue (f : Voice → Voice) : (s.mapVoices f).sdue = s.sdue := rfl
@[simp] theorem mapVoices_err (f : Voice → Voice) : (s.mapVoices f).err = s.err := rfl
@[simp] theorem mapVoices_errcode (f : Voice → Voice) : (s.mapVoices f).errcode = s.errcode := rfl
@[simp] theorem mapVoices_held (f : Voice → Voice) : (s.mapVoices f).held = s.held := rfl
@[simp] theorem mapVoices_cmds (f : Voice → Voice) : (s.mapVoices f).cmds = s.cmds := rfl
@[simp] theorem mapVoices_schedule (f : Voice → Voice) : (s.mapVoices f).schedule = s.schedule := rfl
@[simp] theorem mapVoices_outcomes (f : Voice → Voice) : (s.mapVoices f).outcomes = s.outcomes := rfl

/-! ### writeVreg -/

@[simp] theorem writeVreg_cfg (v : VoiceIx) (r : VReg) (imm : U16) : (s.writeVreg v r imm).cfg = s.cfg := rfl
@[simp] theorem writeVreg_voices (v : VoiceIx) (r : VReg) (imm : U16) : (s.writeVreg v r imm).voices = s.voices.set v ((s.voice v).writeReg r imm) := rfl
@[simp] theorem writeVreg_duty (v : VoiceIx) (r : VReg) (imm : U16) : (s.writeVreg v r imm).duty = s.duty := rfl
@[simp] theorem writeVreg_sdue (v : VoiceIx) (r : VReg) (imm : U16) : (s.writeVreg v r imm).sdue = s.sdue := rfl
@[simp] theorem writeVreg_err (v : VoiceIx) (r : VReg) (imm : U16) : (s.writeVreg v r imm).err = s.err := rfl
@[simp] theorem writeVreg_errcode (v : VoiceIx) (r : VReg) (imm : U16) : (s.writeVreg v r imm).errcode = s.errcode := rfl
@[simp] theorem writeVreg_held (v : VoiceIx) (r : VReg) (imm : U16) : (s.writeVreg v r imm).held = s.held := rfl
@[simp] theorem writeVreg_cmds (v : VoiceIx) (r : VReg) (imm : U16) : (s.writeVreg v r imm).cmds = s.cmds := rfl
@[simp] theorem writeVreg_schedule (v : VoiceIx) (r : VReg) (imm : U16) : (s.writeVreg v r imm).schedule = s.schedule := rfl
@[simp] theorem writeVreg_outcomes (v : VoiceIx) (r : VReg) (imm : U16) : (s.writeVreg v r imm).outcomes = s.outcomes := rfl

/-! ### finish -/

@[simp] theorem finish_cfg (o : CmdOutcome) : (s.finish o).cfg = s.cfg := rfl
@[simp] theorem finish_voices (o : CmdOutcome) : (s.finish o).voices = s.voices := rfl
@[simp] theorem finish_duty (o : CmdOutcome) : (s.finish o).duty = s.duty := rfl
@[simp] theorem finish_sdue (o : CmdOutcome) : (s.finish o).sdue = s.sdue := rfl
@[simp] theorem finish_err (o : CmdOutcome) : (s.finish o).err = s.err := rfl
@[simp] theorem finish_errcode (o : CmdOutcome) : (s.finish o).errcode = s.errcode := rfl
@[simp] theorem finish_held (o : CmdOutcome) : (s.finish o).held = false := rfl
@[simp] theorem finish_cmds (o : CmdOutcome) : (s.finish o).cmds = s.cmds.tail := rfl
@[simp] theorem finish_schedule (o : CmdOutcome) : (s.finish o).schedule = s.schedule := rfl
@[simp] theorem finish_outcomes (o : CmdOutcome) : (s.finish o).outcomes = s.outcomes ++ [o] := rfl

/-! ### hold -/

@[simp] theorem hold_cfg : (s.hold).cfg = s.cfg := rfl
@[simp] theorem hold_voices : (s.hold).voices = s.voices := rfl
@[simp] theorem hold_duty : (s.hold).duty = s.duty := rfl
@[simp] theorem hold_sdue : (s.hold).sdue = s.sdue := rfl
@[simp] theorem hold_err : (s.hold).err = s.err := rfl
@[simp] theorem hold_errcode : (s.hold).errcode = s.errcode := rfl
@[simp] theorem hold_held : (s.hold).held = true := rfl
@[simp] theorem hold_cmds : (s.hold).cmds = s.cmds := rfl
@[simp] theorem hold_schedule : (s.hold).schedule = s.schedule := rfl
@[simp] theorem hold_outcomes : (s.hold).outcomes = s.outcomes := rfl

/-! ### recordError -/

@[simp] theorem recordError_cfg (c : CmdError) : (s.recordError c).cfg = s.cfg := by
  unfold State.recordError; split <;> rfl
@[simp] theorem recordError_voices (c : CmdError) : (s.recordError c).voices = s.voices := by
  unfold State.recordError; split <;> rfl
@[simp] theorem recordError_duty (c : CmdError) : (s.recordError c).duty = s.duty := by
  unfold State.recordError; split <;> rfl
@[simp] theorem recordError_sdue (c : CmdError) : (s.recordError c).sdue = s.sdue := by
  unfold State.recordError; split <;> rfl
@[simp] theorem recordError_err (c : CmdError) : (s.recordError c).err = true := by
  unfold State.recordError; split <;> simp [*]
@[simp] theorem recordError_errcode (c : CmdError) : (s.recordError c).errcode = if s.err then s.errcode else errorCode c := by
  unfold State.recordError; split <;> rfl
@[simp] theorem recordError_held (c : CmdError) : (s.recordError c).held = s.held := by
  unfold State.recordError; split <;> rfl
@[simp] theorem recordError_cmds (c : CmdError) : (s.recordError c).cmds = s.cmds := by
  unfold State.recordError; split <;> rfl
@[simp] theorem recordError_schedule (c : CmdError) : (s.recordError c).schedule = s.schedule := by
  unfold State.recordError; split <;> rfl
@[simp] theorem recordError_outcomes (c : CmdError) : (s.recordError c).outcomes = s.outcomes := by
  unfold State.recordError; split <;> rfl

/-! ### raiseCmdError -/

@[simp] theorem raiseCmdError_cfg (c : CmdError) : (s.raiseCmdError c).cfg = s.cfg := recordError_cfg s c
@[simp] theorem raiseCmdError_voices (c : CmdError) : (s.raiseCmdError c).voices = s.voices := recordError_voices s c
@[simp] theorem raiseCmdError_duty (c : CmdError) : (s.raiseCmdError c).duty = s.duty := recordError_duty s c
@[simp] theorem raiseCmdError_sdue (c : CmdError) : (s.raiseCmdError c).sdue = s.sdue := recordError_sdue s c
@[simp] theorem raiseCmdError_err (c : CmdError) : (s.raiseCmdError c).err = true := recordError_err s c
@[simp] theorem raiseCmdError_errcode (c : CmdError) : (s.raiseCmdError c).errcode = if s.err then s.errcode else errorCode c := recordError_errcode s c
@[simp] theorem raiseCmdError_held (c : CmdError) : (s.raiseCmdError c).held = false := rfl
@[simp] theorem raiseCmdError_cmds (c : CmdError) : (s.raiseCmdError c).cmds = s.cmds.tail := by
  unfold State.raiseCmdError; simp
@[simp] theorem raiseCmdError_schedule (c : CmdError) : (s.raiseCmdError c).schedule = s.schedule := recordError_schedule s c
@[simp] theorem raiseCmdError_outcomes (c : CmdError) : (s.raiseCmdError c).outcomes = s.outcomes ++ [.error c] := by
  unfold State.raiseCmdError; simp

/-! ### boundary -/

@[simp] theorem boundary_cfg : (s.boundary).cfg = s.cfg := rfl
@[simp] theorem boundary_voices : (s.boundary).voices = s.voices := rfl
@[simp] theorem boundary_duty : (s.boundary).duty = s.duty := rfl
@[simp] theorem boundary_sdue : (s.boundary).sdue = true := rfl
@[simp] theorem boundary_err : (s.boundary).err = s.err := rfl
@[simp] theorem boundary_errcode : (s.boundary).errcode = s.errcode := rfl
@[simp] theorem boundary_held : (s.boundary).held = s.held := rfl
@[simp] theorem boundary_cmds : (s.boundary).cmds = s.cmds := rfl
@[simp] theorem boundary_schedule : (s.boundary).schedule = s.schedule := rfl
@[simp] theorem boundary_outcomes : (s.boundary).outcomes = s.outcomes := rfl

/-! ### resetEvent -/

@[simp] theorem resetEvent_cfg : (s.resetEvent).cfg = s.cfg := rfl
@[simp] theorem resetEvent_voices : (s.resetEvent).voices = Voices.reset := rfl
@[simp] theorem resetEvent_duty : (s.resetEvent).duty = s.cfg.outMid := rfl
@[simp] theorem resetEvent_sdue : (s.resetEvent).sdue = false := rfl
@[simp] theorem resetEvent_err : (s.resetEvent).err = false := rfl
@[simp] theorem resetEvent_errcode : (s.resetEvent).errcode = 0 := rfl
@[simp] theorem resetEvent_held : (s.resetEvent).held = false := rfl
@[simp] theorem resetEvent_cmds : (s.resetEvent).cmds = if s.held then s.cmds.tail else s.cmds := rfl
@[simp] theorem resetEvent_schedule : (s.resetEvent).schedule = s.schedule := rfl
@[simp] theorem resetEvent_outcomes : (s.resetEvent).outcomes = s.outcomes := rfl

/-! ### sampleUpdate -/

@[simp] theorem sampleUpdate_cfg : (s.sampleUpdate).cfg = s.cfg := rfl
@[simp] theorem sampleUpdate_voices : (s.sampleUpdate).voices = s.voices.map Voice.advance := rfl
@[simp] theorem sampleUpdate_duty : (s.sampleUpdate).duty = wrapu 16 (quantise s.cfg (mix s.cfg (s.voices.map Voice.advance))) := rfl
@[simp] theorem sampleUpdate_sdue : (s.sampleUpdate).sdue = s.sdue := rfl
@[simp] theorem sampleUpdate_err : (s.sampleUpdate).err = s.err := rfl
@[simp] theorem sampleUpdate_errcode : (s.sampleUpdate).errcode = s.errcode := rfl
@[simp] theorem sampleUpdate_held : (s.sampleUpdate).held = s.held := rfl
@[simp] theorem sampleUpdate_cmds : (s.sampleUpdate).cmds = s.cmds := rfl
@[simp] theorem sampleUpdate_schedule : (s.sampleUpdate).schedule = s.schedule := rfl
@[simp] theorem sampleUpdate_outcomes : (s.sampleUpdate).outcomes = s.outcomes := rfl

/-! ### present -/

@[simp] theorem present_cfg (w : CmdWord) : (s.present w).cfg = s.cfg := rfl
@[simp] theorem present_voices (w : CmdWord) : (s.present w).voices = s.voices := rfl
@[simp] theorem present_duty (w : CmdWord) : (s.present w).duty = s.duty := rfl
@[simp] theorem present_sdue (w : CmdWord) : (s.present w).sdue = s.sdue := rfl
@[simp] theorem present_err (w : CmdWord) : (s.present w).err = s.err := rfl
@[simp] theorem present_errcode (w : CmdWord) : (s.present w).errcode = s.errcode := rfl
@[simp] theorem present_held (w : CmdWord) : (s.present w).held = false := rfl
@[simp] theorem present_cmds (w : CmdWord) : (s.present w).cmds = w :: s.cmds.tail := rfl
@[simp] theorem present_schedule (w : CmdWord) : (s.present w).schedule = .engine :: s.schedule := rfl
@[simp] theorem present_outcomes (w : CmdWord) : (s.present w).outcomes = s.outcomes := rfl

end Sys2Proof.Machine
end

