-- ==== Sys2Proof/Laws/Voices.lean ====
section
/-! SUPPORT. Reading a bank or a register after an update of the banks: the four banks do not alias (R20). -/

namespace Sys2Proof.Machine

/-! ### Banks -/

@[simp] theorem Voices.get_set_self (b : Voices) (v : VoiceIx) (x : Voice) : (b.set v x).get v = x := by
  fin_cases v <;> rfl

theorem Voices.get_set_of_ne (b : Voices) {v w : VoiceIx} (x : Voice) (h : w ≠ v) : (b.set v x).get w = b.get w := by
  fin_cases v <;> fin_cases w <;> first | rfl | exact absurd rfl h

@[simp] theorem Voices.get_map (b : Voices) (f : Voice → Voice) (v : VoiceIx) : (b.map f).get v = f (b.get v) := by
  fin_cases v <;> rfl

@[simp] theorem Voices.get_reset (v : VoiceIx) : Voices.reset.get v = Voice.reset := by
  fin_cases v <;> rfl

/-- Two banks of voices are the same when each voice is. -/
theorem Voices.ext_get {a b : Voices} (h : ∀ v, a.get v = b.get v) : a = b := by
  have h0 := h 0; have h1 := h 1; have h2 := h 2; have h3 := h 3
  cases a; cases b
  simp only [Voices.get] at h0 h1 h2 h3
  simp [h0, h1, h2, h3]

/-! ### The bank of a state -/

theorem voice_eq_of_voices {s t : State} (h : t.voices = s.voices) (v : VoiceIx) : t.voice v = s.voice v := by
  unfold State.voice; rw [h]

@[simp] theorem voice_setVoice_self (s : State) (v : VoiceIx) (x : Voice) : (s.setVoice v x).voice v = x :=
  Voices.get_set_self ..

theorem voice_setVoice_of_ne (s : State) {v w : VoiceIx} (x : Voice) (h : w ≠ v) : (s.setVoice v x).voice w = s.voice w :=
  Voices.get_set_of_ne _ _ h

/-- Any bank after `setVoice`. -/
theorem voice_setVoice (s : State) (v w : VoiceIx) (x : Voice) :
    (s.setVoice v x).voice w = if w = v then x else s.voice w := by
  split
  · next h => subst h; exact voice_setVoice_self ..
  · next h => exact voice_setVoice_of_ne s x h

@[simp] theorem voice_mapVoices (s : State) (f : Voice → Voice) (v : VoiceIx) : (s.mapVoices f).voice v = f (s.voice v) :=
  Voices.get_map ..

@[simp] theorem voice_finish (s : State) (o : CmdOutcome) (v : VoiceIx) : (s.finish o).voice v = s.voice v := rfl

@[simp] theorem voice_hold (s : State) (v : VoiceIx) : s.hold.voice v = s.voice v := rfl

@[simp] theorem voice_recordError (s : State) (c : CmdError) (v : VoiceIx) : (s.recordError c).voice v = s.voice v :=
  voice_eq_of_voices (recordError_voices s c) v

@[simp] theorem voice_raiseCmdError (s : State) (c : CmdError) (v : VoiceIx) : (s.raiseCmdError c).voice v = s.voice v :=
  voice_eq_of_voices (raiseCmdError_voices s c) v

@[simp] theorem voice_boundary (s : State) (v : VoiceIx) : s.boundary.voice v = s.voice v := rfl

@[simp] theorem voice_resetEvent (s : State) (v : VoiceIx) : s.resetEvent.voice v = Voice.reset := Voices.get_reset v

@[simp] theorem voice_sampleUpdate (s : State) (v : VoiceIx) : s.sampleUpdate.voice v = (s.voice v).advance :=
  Voices.get_map ..

/-- A register is read off its bank. -/
theorem reg_eq_of_voice {s t : State} {v w : VoiceIx} (h : t.voice w = s.voice v) (r : VReg) : t.reg w r = s.reg v r := by
  unfold State.reg; rw [h]

end Sys2Proof.Machine
end

