-- ==== Sys2Proof/Laws/Operands.lean ====
section
/-! SUPPORT. The small lemmas of the register maps and of the number notation. -/

namespace Sys2Proof.Machine

/-! ### Register numbers (R51, R52, R60) -/

@[simp] theorem vregOf_number (r : VReg) : vregOf (vregNumber r) = some r := by
  cases r <;> rfl

theorem number_of_vregOf : ∀ {n : RegNum} {r : VReg}, vregOf n = some r → vregNumber r = n := by
  decide

theorem vregOf_eq_none : ∀ {n : RegNum}, vregOf n = none ↔ 0x12 < n.toNat := by
  decide

@[simp] theorem gregOf_number (g : GReg) : gregOf (gregNumber g) = some g := by
  cases g <;> rfl

theorem gregOf_eq_none : ∀ {n : RegNum}, gregOf n = none ↔ 1 < n.toNat := by
  decide

/-! ### Stage codes (R29) -/

@[simp] theorem stageOfCode_code (g : Stage) : stageOfCode (stageCode g) = some g := by
  cases g <;> rfl

theorem code_of_stageOfCode : ∀ {c : BitVec 3} {g : Stage}, stageOfCode c = some g → stageCode g = c := by
  decide

theorem stageCode_injective {a b : Stage} (h : stageCode a = stageCode b) : a = b := by
  have := congrArg stageOfCode h
  simpa using this

/-- STAGE as the host reads it tells the stage (R53). -/
theorem stageCode_setWidth_inj {a b : Stage} : (stageCode a).setWidth 16 = (stageCode b).setWidth 16 ↔ a = b := by
  cases a <;> cases b <;> decide

/-! ### One register of a bank (R53, R54) -/

/-- A register read after another was written. -/
theorem readReg_writeReg_of_ne (x : Voice) {r q : VReg} (imm : U16) (h : q ≠ r) :
    (x.writeReg r imm).readReg q = x.readReg q := by
  cases r <;> cases q <;> first | rfl | exact absurd rfl h

/-- A register read after it was written with a legal value: the value, whole (R54). -/
theorem readReg_writeReg_self (x : Voice) (r : VReg) (imm : U16) (h : vregLegalImm r imm = true) :
    (x.writeReg r imm).readReg r = imm := by
  cases r <;> simp only [vregLegalImm, decide_eq_true_eq, Bool.false_eq_true] at h <;> try rfl
  case stage =>
    have : imm = 0 ∨ imm = 1 ∨ imm = 2 ∨ imm = 3 ∨ imm = 4 := by
      simp only [BitVec.toNat_eq]
      have h' := h
      simp
      omega
    rcases this with rfl | rfl | rfl | rfl | rfl <;> rfl
  case ampbase =>
    simp only [Voice.writeReg, Voice.readReg, loByte, BitVec.toNat_eq, BitVec.toNat_setWidth, BitVec.extractLsb'_toNat]
    omega
  case key =>
    simp only [Voice.writeReg, Voice.readReg, loByte, BitVec.toNat_eq, BitVec.toNat_setWidth, BitVec.extractLsb'_toNat]
    omega

/-! ### Numbers (R10 to R12) -/

theorem hiByte_toNat (x : U16) : (hiByte x).toNat = x.toNat / 256 := by
  have := x.isLt
  simp only [hiByte, BitVec.extractLsb'_toNat, Nat.shiftRight_eq_div_pow]
  omega

theorem wrapu_toNat (n : Nat) (z : Int) : ((wrapu n z).toNat : Int) = z % 2 ^ n := by
  simp only [wrapu, BitVec.toNat_ofInt]
  have : (0 : Int) ≤ z % ((2 ^ n : Nat) : Int) := Int.emod_nonneg _ (by positivity)
  rw [Int.toNat_of_nonneg this]
  push_cast; rfl

/-- No narrowing happens where the value fits (R11). -/
theorem wrapu_toNat_of_fits {n : Nat} {z : Int} (h0 : 0 ≤ z) (h1 : z < 2 ^ n) : ((wrapu n z).toNat : Int) = z := by
  rw [wrapu_toNat, Int.emod_eq_of_lt h0 h1]

theorem wraps_dvd (n : Nat) (z : Int) : (2 ^ n : Int) ∣ wraps n z - z := by
  have := Int.dvd_bmod_sub_self (x := z) (m := 2 ^ n)
  simpa [wraps] using this

end Sys2Proof.Machine
end

