-- ==== Sys2Proof/Laws/Exec.lean ====
section
/-! SUPPORT. What each meaning does, said once: the equations of each command in each of its cases, and one inversion of `exec` that
later proofs split on instead of unfolding the meanings. -/

namespace Sys2Proof.Machine

variable {s t : State}

/-! ### Ending a command (R15, R211) -/

@[simp] theorem conclude_done (s : State) : s.conclude .done = .next (s.finish .done) := rfl
@[simp] theorem conclude_respond (s : State) (val : U16) : s.conclude (.respond val) = .next (s.finish (.respond val)) := rfl
@[simp] theorem conclude_error (s : State) (c : CmdError) : s.conclude (.error c) = .next (s.raiseCmdError c) := rfl
@[simp] theorem conclude_hold (s : State) : s.conclude .hold = .next s.hold := rfl

/-- Ending a command always answers a next state, and these are its cases. -/
theorem conclude_next {o : CmdOutcome} (h : s.conclude o = .next t) :
    (o = .hold ∧ t = s.hold) ∨ (∃ c, o = .error c ∧ t = s.raiseCmdError c) ∨ t = s.finish o := by
  cases o <;> simp only [conclude_done, conclude_respond, conclude_error, conclude_hold, Host.Outcome.next.injEq] at h <;>
    simp [h.symm]

/-- `finish` alone leaves the banks and the global registers. -/
theorem finishedWith_finish (s : State) (o : CmdOutcome) : FinishedWith o s (s.finish o) := by
  constructor <;> simp

/-- Any change of one bank, then `finish`. -/
theorem finishedWith_setVoice (s : State) (v : VoiceIx) (x : Voice) (o : CmdOutcome) :
    FinishedWith o s ((s.setVoice v x).finish o) := by
  constructor <;> simp

/-- Any change of every bank, then `finish`. -/
theorem finishedWith_mapVoices (s : State) (f : Voice → Voice) (o : CmdOutcome) :
    FinishedWith o s ((s.mapVoices f).finish o) := by
  constructor <;> simp

/-- A write of one register, then `finish`. -/
theorem finishedWith_writeVreg (s : State) (v : VoiceIx) (r : VReg) (imm : U16) (o : CmdOutcome) :
    FinishedWith o s ((s.writeVreg v r imm).finish o) := by
  constructor <;> simp

/-- `raise CmdError` changes the error record alone (R211). -/
theorem refusedWith_raiseCmdError (s : State) (c : CmdError) : RefusedWith c s (s.raiseCmdError c) := by
  constructor <;> simp

/-! ### WR, RD, RDG (R91, R92, R94) -/

/-- The checks of R91 pass for the registers the host may write, with a value in their range, and for no others. -/
theorem wrRefusal_eq_none {r : RegNum} {imm : U16} :
    wrRefusal r imm = none ↔ ∃ reg, vregOf r = some reg ∧ vregLegalImm reg imm = true := by
  constructor
  · intro h
    cases hr : vregOf r with
    | none =>
      have := vregOf_eq_none.mp hr
      simp [wrRefusal, this] at h
    | some reg =>
      refine ⟨reg, rfl, ?_⟩
      obtain rfl := number_of_vregOf hr
      cases reg <;> simp [wrRefusal, vregNumber, vregLegalImm] at h ⊢ <;> omega
  · rintro ⟨reg, hr, hl⟩
    obtain rfl := number_of_vregOf hr
    cases reg <;> simp [wrRefusal, vregNumber, vregLegalImm] at hl ⊢ <;> omega

theorem execWr_of_legal {r : RegNum} {imm : U16} {reg : VReg} (v : VoiceIx) (s : State) (hr : vregOf r = some reg)
    (hl : vregLegalImm reg imm = true) : execWr v r imm s = .next ((s.writeVreg v reg imm).finish .done) := by
  simp [execWr, wrRefusal_eq_none.mpr ⟨reg, hr, hl⟩, hr]

theorem execWr_of_refusal {r : RegNum} {imm : U16} {c : CmdError} (v : VoiceIx) (s : State) (h : wrRefusal r imm = some c) :
    execWr v r imm s = .next (s.raiseCmdError c) := by
  simp [execWr, h]

theorem execRd_of_reg {r : RegNum} {reg : VReg} (v : VoiceIx) (s : State) (hr : vregOf r = some reg) :
    execRd v r s = .next (s.finish (.respond (s.reg v reg))) := by
  simp [execRd, State.readVreg, hr]

theorem execRd_of_reserved {r : RegNum} (v : VoiceIx) (s : State) (hr : vregOf r = none) :
    execRd v r s = .next (s.raiseCmdError .badReg) := by
  simp [execRd, State.readVreg, hr]

theorem execRdg_status (s : State) : execRdg 0 s = .next (s.finish (.respond s.status)) := rfl

theorem execRdg_duty (s : State) : execRdg 1 s = .next (s.finish (.respond s.duty)) := rfl

theorem execRdg_of_reserved {g : RegNum} (s : State) (hg : gregOf g = none) :
    execRdg g s = .next (s.raiseCmdError .badReg) := by
  simp [execRdg, State.readGreg, hg]

/-! ### SYNC (R150, R151) -/

theorem execSync_of_due (h : s.sdue = true) :
    execSync s = .next (({ s with sdue := false } : State).sampleUpdate.finish .done) := by
  simp [execSync, h]

theorem execSync_of_not_due (h : s.sdue = false) : execSync s = .next s.hold := by
  simp [execSync, h]

/-! ### The inversion of `exec` -/

/-- The cases of a command's execution, each with the state it leaves. -/
inductive ExecNext : Instr → State → State → Prop where
  | nop (s : State) : ExecNext .nop s (s.finish .done)
  | wr (s : State) (v : VoiceIx) {r : RegNum} {imm : U16} {reg : VReg} (hr : vregOf r = some reg) (hl : vregLegalImm reg imm = true) :
      ExecNext (.wr v r imm) s ((s.writeVreg v reg imm).finish .done)
  | wrRefused (s : State) (v : VoiceIx) {r : RegNum} {imm : U16} {c : CmdError} (h : wrRefusal r imm = some c) : ExecNext (.wr v r imm) s (s.raiseCmdError c)
  | rd (s : State) (v : VoiceIx) {r : RegNum} {reg : VReg} (hr : vregOf r = some reg) : ExecNext (.rd v r) s (s.finish (.respond (s.reg v reg)))
  | rdRefused (s : State) (v : VoiceIx) {r : RegNum} (hr : vregOf r = none) : ExecNext (.rd v r) s (s.raiseCmdError .badReg)
  | rdgStatus (s : State) : ExecNext (.rdg 0) s (s.finish (.respond s.status))
  | rdgDuty (s : State) : ExecNext (.rdg 1) s (s.finish (.respond s.duty))
  | rdgRefused (s : State) {g : RegNum} (hg : gregOf g = none) : ExecNext (.rdg g) s (s.raiseCmdError .badReg)
  | kon (s : State) (v : VoiceIx) (key : U8) : ExecNext (.kon v key) s ((s.setVoice v ((s.voice v).claim key)).finish .done)
  | koff (s : State) (key : U8) : ExecNext (.koff key) s ((s.mapVoices fun x => x.releaseKey key).finish .done)
  | etick (s : State) : ExecNext .etick s ((s.mapVoices Voice.controlTick).finish .done)
  | fmdk (s : State) : ExecNext .fmdk s ((s.mapVoices Voice.fmDecay).finish .done)
  | refr (s : State) (v : VoiceIx) : ExecNext (.refr v) s ((s.setVoice v (s.voice v).refresh).finish .done)
  | syncRuns {s : State} (h : s.sdue = true) : ExecNext .sync s (({ s with sdue := false } : State).sampleUpdate.finish .done)
  | syncHeld {s : State} (h : s.sdue = false) : ExecNext .sync s s.hold

/-- Each case is one of `exec`. -/
theorem ExecNext.exec_eq {i : Instr} (h : ExecNext i s t) : exec i s = .next t := by
  cases h with
  | wr _ v hr hl => exact execWr_of_legal v _ hr hl
  | wrRefused _ v h => exact execWr_of_refusal v _ h
  | rd _ v hr => exact execRd_of_reg v _ hr
  | rdRefused _ v hr => exact execRd_of_reserved v _ hr
  | rdgRefused _ hg => exact execRdg_of_reserved _ hg
  | syncRuns h => exact execSync_of_due h
  | syncHeld h => exact execSync_of_not_due h
  | _ => rfl

/-- Some case applies to every command and state. -/
theorem ExecNext.exists_next (i : Instr) (s : State) : ∃ t, ExecNext i s t := by
  cases i with
  | nop => exact ⟨_, .nop s⟩
  | wr v r imm =>
    cases hc : wrRefusal r imm with
    | some c => exact ⟨_, .wrRefused s v hc⟩
    | none =>
      obtain ⟨reg, hr, hl⟩ := wrRefusal_eq_none.mp hc
      exact ⟨_, .wr s v hr hl⟩
  | rd v r =>
    cases hr : vregOf r with
    | some reg => exact ⟨_, .rd s v hr⟩
    | none => exact ⟨_, .rdRefused s v hr⟩
  | rdg g =>
    by_cases h0 : g = 0
    · subst h0; exact ⟨_, .rdgStatus s⟩
    · by_cases h1 : g = 1
      · subst h1; exact ⟨_, .rdgDuty s⟩
      · refine ⟨_, .rdgRefused s (gregOf_eq_none.mpr ?_)⟩
        simp only [BitVec.toNat_eq] at h0 h1
        simp at h0 h1
        omega
  | kon v key => exact ⟨_, .kon s v key⟩
  | koff key => exact ⟨_, .koff s key⟩
  | etick => exact ⟨_, .etick s⟩
  | fmdk => exact ⟨_, .fmdk s⟩
  | refr v => exact ⟨_, .refr s v⟩
  | sync =>
    cases h : s.sdue with
    | true => exact ⟨_, .syncRuns h⟩
    | false => exact ⟨_, .syncHeld h⟩

/-- The inversion: a next state of `exec` is the one of a case. -/
theorem exec_next_cases {i : Instr} (h : exec i s = .next t) : ExecNext i s t := by
  obtain ⟨t', ht⟩ := ExecNext.exists_next i s
  have := ht.exec_eq.symm.trans h
  cases this
  exact ht

end Sys2Proof.Machine
end

