-- ==== Sys2Proof/Laws/PerInstr.lean ====
section
/-! SUPPORT. The layout of every command's word: its fields are those of spec/30_encoding.md R71 to R74, and they are well formed. -/

namespace Sys2Proof.Laws.EncodeLayout

/-- The word of `i` has the fields of `i`, and they pass the checks of R74. -/
def Statement (i : Instr) : Prop := Fields.ofWord (encode i) = i.fields ∧ i.wellFormed = true

theorem nop : Statement .nop := ⟨by decide, rfl⟩

theorem wr (v : VoiceIx) (r : RegNum) (imm : U16) : Statement (.wr v r imm) := ⟨ofWord_append .., rfl⟩

theorem rd (v : VoiceIx) (r : RegNum) : Statement (.rd v r) := ⟨ofWord_append .., rfl⟩

theorem rdg (g : RegNum) : Statement (.rdg g) := ⟨ofWord_append .., rfl⟩

theorem kon (v : VoiceIx) (key : U8) : Statement (.kon v key) := by
  refine ⟨ofWord_append_key .., ?_⟩
  simp [Instr.wellFormed, Instr.fields, Fields.wellFormed, Fields.opDefined, Fields.zIsZero, Fields.vAllowed, Fields.rAllowed,
    Fields.immAllowed]
  left; ext j hj; simp

theorem koff (key : U8) : Statement (.koff key) := by
  refine ⟨ofWord_append_key .., ?_⟩
  simp [Instr.wellFormed, Instr.fields, Fields.wellFormed, Fields.opDefined, Fields.zIsZero, Fields.vAllowed, Fields.rAllowed,
    Fields.immAllowed]
  left; ext j hj; simp

theorem etick : Statement .etick := ⟨by decide, rfl⟩

theorem fmdk : Statement .fmdk := ⟨by decide, rfl⟩

theorem refr (v : VoiceIx) : Statement (.refr v) := ⟨ofWord_append .., rfl⟩

theorem sync : Statement .sync := ⟨by decide, rfl⟩

end Sys2Proof.Laws.EncodeLayout
end

