-- ==== Sys2Proof/Laws/Registers.lean ====
section
/-! SUPPORT. What each operation on a bank leaves in each register, and what each update of the state leaves in each register of each
voice. -/

namespace Sys2Proof.Machine

/-! ### Operations on one bank -/

theorem readReg_reset (r : VReg) : Voice.reset.readReg r = if r = .key then 0xFF else 0 := by
  cases r <;> rfl

/-- KON's seven writes (R100), and the registers it leaves (R101). -/
theorem readReg_claim_of_kept (x : Voice) (key : U8) {r : VReg}
    (h : r ∉ [VReg.phase, .fmphase, .stage, .env, .fmexp, .age, .key]) : (x.claim key).readReg r = x.readReg r := by
  cases r <;> first | rfl | exact absurd (by decide) h

/-- KOFF writes STAGE alone (R102). -/
theorem readReg_releaseKey_of_ne (x : Voice) (key : U8) {r : VReg} (h : r ≠ .stage) :
    (x.releaseKey key).readReg r = x.readReg r := by
  unfold Voice.releaseKey
  split
  · cases r <;> first | rfl | exact absurd rfl h
  · rfl

/-- A voice that holds another key is left alone (R102). -/
theorem releaseKey_of_ne {x : Voice} {key : U8} (h : x.key ≠ key) : x.releaseKey key = x := if_neg h

theorem releaseKey_of_eq {x : Voice} {key : U8} (h : x.key = key) : x.releaseKey key = { x with stage := .release } := if_pos h

/-- The key of a bank, told by its register. -/
theorem readReg_key_eq {x : Voice} {key : U8} : x.readReg .key = key.setWidth 16 ↔ x.key = key := by
  constructor
  · intro h
    have := congrArg (BitVec.setWidth 8) h
    simpa [Voice.readReg] using this
  · rintro rfl; rfl

/-- The stage of a bank, told by its register. -/
theorem readReg_stage_eq {x : Voice} {g : Stage} : x.readReg .stage = (stageCode g).setWidth 16 ↔ x.stage = g :=
  stageCode_setWidth_inj

/-- `env_step` writes ENV and STAGE alone (R111). -/
theorem readReg_envStep_of_ne (x : Voice) {r : VReg} (hs : r ≠ .stage) (he : r ≠ .env) :
    x.envStep.readReg r = x.readReg r := by
  unfold Voice.envStep
  cases x.stage <;> simp only <;> (try split) <;>
    (cases r <;> first | rfl | exact absurd rfl hs | exact absurd rfl he)

theorem readReg_ageStep_of_ne (x : Voice) {r : VReg} (h : r ≠ .age) : x.ageStep.readReg r = x.readReg r := by
  cases r <;> first | rfl | exact absurd rfl h

/-- ETICK's part of a bank: AGE advances (R117) … -/
theorem controlTick_age (x : Voice) : x.controlTick.age = wrapu 16 (unsigned x.age + 1) := by
  have : x.envStep.readReg .age = x.readReg .age := readReg_envStep_of_ne x (by decide) (by decide)
  simp only [Voice.readReg] at this
  simp [Voice.controlTick, Voice.ageStep, this]

/-- … and besides AGE it is `env_step`. -/
theorem readReg_controlTick (x : Voice) {r : VReg} (h : r ≠ .age) : x.controlTick.readReg r = x.envStep.readReg r :=
  readReg_ageStep_of_ne _ h

/-- FMDK writes FMEXP alone (R130). -/
theorem readReg_fmDecay_of_ne (x : Voice) {r : VReg} (h : r ≠ .fmexp) : x.fmDecay.readReg r = x.readReg r := by
  cases r <;> first | rfl | exact absurd rfl h

/-- REFR writes the latches alone (R135). -/
theorem readReg_refresh_of_ne (x : Voice) {r : VReg} (ha : r ≠ .amp) (hf : r ≠ .fmamp) :
    x.refresh.readReg r = x.readReg r := by
  cases r <;> first | rfl | exact absurd rfl ha | exact absurd rfl hf

/-- SYNC writes the phases alone (R153, R165). -/
theorem readReg_advance_of_ne (x : Voice) {r : VReg} (hp : r ≠ .phase) (hf : r ≠ .fmphase) :
    x.advance.readReg r = x.readReg r := by
  cases r <;> first | rfl | exact absurd rfl hp | exact absurd rfl hf

/-! ### Registers of a state -/

@[simp] theorem reg_finish (s : State) (o : CmdOutcome) (v : VoiceIx) (r : VReg) : (s.finish o).reg v r = s.reg v r := rfl

@[simp] theorem reg_hold (s : State) (v : VoiceIx) (r : VReg) : s.hold.reg v r = s.reg v r := rfl

@[simp] theorem reg_raiseCmdError (s : State) (c : CmdError) (v : VoiceIx) (r : VReg) :
    (s.raiseCmdError c).reg v r = s.reg v r := reg_eq_of_voice (voice_raiseCmdError s c v) r

@[simp] theorem reg_boundary (s : State) (v : VoiceIx) (r : VReg) : s.boundary.reg v r = s.reg v r := rfl

@[simp] theorem reg_mapVoices (s : State) (f : Voice → Voice) (v : VoiceIx) (r : VReg) :
    (s.mapVoices f).reg v r = (f (s.voice v)).readReg r := by
  simp [State.reg]

@[simp] theorem reg_setVoice_self (s : State) (v : VoiceIx) (x : Voice) (r : VReg) : (s.setVoice v x).reg v r = x.readReg r := by
  simp [State.reg]

theorem reg_setVoice_of_ne (s : State) {v w : VoiceIx} (x : Voice) (r : VReg) (h : w ≠ v) :
    (s.setVoice v x).reg w r = s.reg w r := reg_eq_of_voice (voice_setVoice_of_ne s x h) r

@[simp] theorem reg_sampleUpdate (s : State) (v : VoiceIx) (r : VReg) :
    s.sampleUpdate.reg v r = (s.voice v).advance.readReg r := by
  simp [State.reg]

/-- A register after WR wrote it (R54). -/
theorem reg_writeVreg_self (s : State) (v : VoiceIx) {r : VReg} {imm : U16} (h : vregLegalImm r imm = true) :
    (s.writeVreg v r imm).reg v r = imm := by
  simp [State.writeVreg, readReg_writeReg_self _ _ _ h]

/-- Every other register after a WR (R91). -/
theorem reg_writeVreg_of_ne (s : State) {v w : VoiceIx} {r q : VReg} (imm : U16) (h : w ≠ v ∨ q ≠ r) :
    (s.writeVreg v r imm).reg w q = s.reg w q := by
  by_cases hw : w = v
  · subst hw
    obtain h | h := h
    · exact absurd rfl h
    · simp only [State.writeVreg, reg_setVoice_self]
      exact readReg_writeReg_of_ne _ imm h
  · exact reg_setVoice_of_ne s _ q hw

end Sys2Proof.Machine
end

