-- ==== Sys2Proof/Laws/Step.lean ====
section
/-! SUPPORT. What a step does, said once: whose turn it is, and the inversion of `step`. -/

namespace Sys2Proof.Machine

variable {s t : State}

/-- The next step is the engine's: the schedule says so, or says nothing. -/
def State.engineNext (s : State) : Prop := s.schedule = [] ∨ ∃ ts, s.schedule = .engine :: ts

/-- The state with the step's turn taken off the schedule. -/
def State.turnTaken (s : State) : State := { s with schedule := s.schedule.tail }

@[simp] theorem turnTaken_cfg (s : State) : s.turnTaken.cfg = s.cfg := rfl
@[simp] theorem turnTaken_voices (s : State) : s.turnTaken.voices = s.voices := rfl
@[simp] theorem turnTaken_duty (s : State) : s.turnTaken.duty = s.duty := rfl
@[simp] theorem turnTaken_sdue (s : State) : s.turnTaken.sdue = s.sdue := rfl
@[simp] theorem turnTaken_err (s : State) : s.turnTaken.err = s.err := rfl
@[simp] theorem turnTaken_errcode (s : State) : s.turnTaken.errcode = s.errcode := rfl
@[simp] theorem turnTaken_held (s : State) : s.turnTaken.held = s.held := rfl
@[simp] theorem turnTaken_cmds (s : State) : s.turnTaken.cmds = s.cmds := rfl
@[simp] theorem turnTaken_schedule (s : State) : s.turnTaken.schedule = s.schedule.tail := rfl
@[simp] theorem turnTaken_outcomes (s : State) : s.turnTaken.outcomes = s.outcomes := rfl
@[simp] theorem turnTaken_voice (s : State) (v : VoiceIx) : s.turnTaken.voice v = s.voice v := rfl

/-- The cases of a step, each with the state it leaves. -/
inductive StepNext : State → State → Prop where
  | boundary {s : State} {ts : List Turn} (h : s.schedule = .boundary :: ts) : StepNext s s.turnTaken.boundary
  | reset {s : State} {ts : List Turn} (h : s.schedule = .reset :: ts) : StepNext s s.turnTaken.resetEvent
  | idle {s : State} (h : s.engineNext) (hc : s.cmds = []) : StepNext s s.turnTaken
  | illegal {s : State} {w : CmdWord} {ws : List CmdWord} {c : CmdError} (h : s.engineNext) (hc : s.cmds = w :: ws) (hd : decode w = .illegal c) :
      StepNext s (s.turnTaken.raiseCmdError c)
  | command {s t : State} {w : CmdWord} {ws : List CmdWord} {i : Instr} (h : s.engineNext) (hc : s.cmds = w :: ws) (hd : decode w = .command i)
      (hx : ExecNext i s.turnTaken t) : StepNext s t

/-- The engine's step is the engine's turn on the state without that turn. -/
theorem step_of_engineNext (h : s.engineNext) : step s = engineTurn s.turnTaken := by
  obtain h | ⟨ts, h⟩ := h
  · have : s.turnTaken = s := by cases s; simp only at h; subst h; rfl
    rw [this]; unfold step; rw [h]
  · unfold step State.turnTaken; rw [h]; rfl

/-- Each case is one of `step`. -/
theorem StepNext.step_eq (h : StepNext s t) : step s = .next t := by
  cases h with
  | boundary h => unfold step State.turnTaken; rw [h]; rfl
  | reset h => unfold step State.turnTaken; rw [h]; rfl
  | idle h hc => rw [step_of_engineNext h]; unfold engineTurn; simp [hc]
  | illegal h hc hd => rw [step_of_engineNext h]; unfold engineTurn; simp [hc, hd]
  | command h hc hd hx => rw [step_of_engineNext h]; unfold engineTurn; simp [hc, hd, hx.exec_eq]

/-- Some case applies to every state. -/
theorem StepNext.exists_next (s : State) : ∃ t, StepNext s t := by
  have engine (h : s.engineNext) : ∃ t, StepNext s t := by
    cases hc : s.cmds with
    | nil => exact ⟨_, .idle h hc⟩
    | cons w ws =>
      cases hd : decode w with
      | illegal c => exact ⟨_, .illegal h hc hd⟩
      | command i =>
        obtain ⟨t, ht⟩ := ExecNext.exists_next i s.turnTaken
        exact ⟨t, .command h hc hd ht⟩
  cases hs : s.schedule with
  | nil => exact engine (.inl hs)
  | cons u us =>
    cases u with
    | engine => exact engine (.inr ⟨us, hs⟩)
    | boundary => exact ⟨_, .boundary hs⟩
    | reset => exact ⟨_, .reset hs⟩

/-- The inversion: a next state of `step` is the one of a case. -/
theorem step_next_cases (h : step s = .next t) : StepNext s t := by
  obtain ⟨t', ht⟩ := StepNext.exists_next s
  have := ht.step_eq.symm.trans h
  cases this
  exact ht

end Sys2Proof.Machine
end

