-- ==== Sys2Proof/Laws/Values.lean ====
section
/-! SUPPORT. What the arithmetic of each command computes, on numbers, and what the host's selections and its key translator give: one lemma per operation, which
later proofs cite instead of unfolding it. -/

namespace Sys2Proof.Machine

/-! ### One bank -/

/-- A bank is told by its nineteen registers. -/
theorem Voice.ext_readReg {x y : Voice} (h : ∀ r, x.readReg r = y.readReg r) : x = y := by
  have byte {a b : U8} (h : a.setWidth 16 = b.setWidth 16) : a = b := by
    have := congrArg (BitVec.setWidth 8) h
    simpa using this
  have h0 := h .phase; have h1 := h .inc; have h2 := h .fmphase; have h3 := h .fminc; have h4 := h .fma0
  have h5 := h .fmda; have h6 := h .fmexp; have h7 := h .fmdec; have h8 := stageCode_setWidth_inj.mp (h .stage)
  have h9 := h .env; have h10 := h .atk; have h11 := h .dcy; have h12 := h .sus; have h13 := h .rls
  have h14 := byte (h .ampbase); have h15 := byte (h .key); have h16 := h .age; have h17 := byte (h .amp)
  have h18 := h .fmamp
  cases x; cases y
  simp only [Voice.readReg] at *
  subst_vars
  rfl

/-- An 8-bit register reads as its number (R53). -/
theorem setWidth_byte_toNat (x : U8) : (x.setWidth 16).toNat = x.toNat := by
  simp; omega

/-- STAGE as the host reads it, told by the stage. -/
theorem reg_stage_eq {s : State} {v : VoiceIx} {g : Stage} :
    s.reg v .stage = (stageCode g).setWidth 16 ↔ (s.voice v).stage = g := readReg_stage_eq

/-! ### `env_step` (R112 to R116) -/

theorem envStep_of_idle {x : Voice} (h : x.stage = .idle) : x.envStep = x := by simp [Voice.envStep, h]

theorem envStep_of_sustain {x : Voice} (h : x.stage = .sustain) : x.envStep = x := by simp [Voice.envStep, h]

theorem envStep_of_attack {x : Voice} (h : x.stage = .attack) :
    x.envStep = if 65535 - x.env.toNat ≤ x.atk.toNat then { x with env := 0xFFFF, stage := .decay }
      else { x with env := BitVec.ofNat 16 (x.env.toNat + x.atk.toNat) } := by simp [Voice.envStep, h]

theorem envStep_of_decay {x : Voice} (h : x.stage = .decay) :
    x.envStep = if x.env.toNat ≤ x.sus.toNat + x.dcy.toNat then { x with env := x.sus, stage := .sustain }
      else { x with env := BitVec.ofNat 16 (x.env.toNat - x.dcy.toNat) } := by simp [Voice.envStep, h]

theorem envStep_of_release {x : Voice} (h : x.stage = .release) :
    x.envStep = if x.env.toNat ≤ x.rls.toNat then { x with env := 0, stage := .idle }
      else { x with env := BitVec.ofNat 16 (x.env.toNat - x.rls.toNat) } := by simp [Voice.envStep, h]

/-! ### FMDK and REFR (R130, R136, R137) -/

theorem fmDecay_fmexp_toNat (x : Voice) :
    x.fmDecay.fmexp.toNat = x.fmexp.toNat - x.fmexp.toNat * x.fmdec.toNat / 65536 := by
  have h1 := x.fmexp.isLt
  have h2 := x.fmdec.isLt
  have hle : x.fmexp.toNat * x.fmdec.toNat / 65536 ≤ x.fmexp.toNat := by
    apply Nat.div_le_of_le_mul
    rw [Nat.mul_comm]
    exact Nat.mul_le_mul (by omega) (le_refl _)
  have e : shiftFloor (unsigned x.fmexp * unsigned x.fmdec) 16 = ((x.fmexp.toNat * x.fmdec.toNat / 65536 : Nat) : Int) := by
    simp [shiftFloor, unsigned]
  simp only [Voice.fmDecay, e]
  zify [hle]
  rw [wrapu_toNat_of_fits] <;> simp only [unsigned] <;> omega

theorem ampValue_toNat (x : Voice) : x.ampValue.toNat = x.ampbase.toNat * (x.env.toNat / 256) / 256 := by
  have h1 := x.ampbase.isLt
  have h2 := (hiByte x.env).isLt
  have h3 : x.ampbase.toNat * (hiByte x.env).toNat ≤ 255 * 255 := Nat.mul_le_mul (by omega) (by omega)
  have e : shiftFloor (unsigned x.ampbase * unsigned (hiByte x.env)) 8 =
      ((x.ampbase.toNat * (hiByte x.env).toNat / 256 : Nat) : Int) := by simp [shiftFloor, unsigned]
  have := wrapu_toNat_of_fits (n := 8) (z := ((x.ampbase.toNat * (hiByte x.env).toNat / 256 : Nat) : Int)) (by omega) (by omega)
  rw [← e] at this
  unfold Voice.ampValue
  rw [hiByte_toNat] at *
  omega

theorem ampValue_le (x : Voice) : x.ampValue.toNat ≤ 254 := by
  have h1 := x.ampbase.isLt
  have h2 := x.env.isLt
  have h3 : x.ampbase.toNat * (x.env.toNat / 256) ≤ 255 * 255 := Nat.mul_le_mul (by omega) (by omega)
  rw [ampValue_toNat]
  omega

theorem fmampValue_toNat (x : Voice) :
    (x.fmampValue.toNat : Int) = (x.fma0.toNat + x.fmda.toInt * x.fmexp.toNat / 65536) % 65536 := by
  unfold Voice.fmampValue
  rw [wrapu_toNat]
  rfl

/-! ### The sample stage (R153) -/

theorem advance_phase (x : Voice) : x.advance.phase = x.phase + x.inc := by
  simp only [Voice.advance, BitVec.toNat_eq, BitVec.toNat_add]
  zify; rw [wrapu_toNat]; rfl

theorem advance_fmphase (x : Voice) : x.advance.fmphase = x.fmphase + x.fminc := by
  simp only [Voice.advance, BitVec.toNat_eq, BitVec.toNat_add]
  zify; rw [wrapu_toNat]; rfl

/-! ### The allocator's selections (R192 to R195) -/

/-- `lowestVoice` finds a voice where there is one, and the lowest. -/
theorem lowestVoice_spec (p : VoiceIx → Bool) :
    (lowestVoice p = none ↔ ∀ v, p v = false) ∧ ∀ n, lowestVoice p = some n → p n = true ∧ ∀ v, p v = true → n ≤ v := by
  unfold lowestVoice
  have e (q : VoiceIx → Prop) : (∀ v, q v) ↔ q 0 ∧ q 1 ∧ q 2 ∧ q 3 := by
    constructor
    · intro h; exact ⟨h 0, h 1, h 2, h 3⟩
    · rintro ⟨h0, h1, h2, h3⟩ v; fin_cases v <;> assumption
  simp only [e]
  cases p 0 <;> cases p 1 <;> cases p 2 <;> cases p 3 <;> simp

/-- `maxAge` bounds every age. -/
theorem age_le_maxAge (view : VoiceIx → VoiceView) (v : VoiceIx) : (view v).age.toNat ≤ maxAge view := by
  unfold maxAge
  fin_cases v <;> simp

/-! ### The key translator (R184) -/

/-- A control tick in which no key line changed has neither event. -/
theorem translateKeys_of_unchanged (t : HostTables) (current : BitVec 32) :
    translateKeys t current 0#32 = (.none, .none) := by
  have h : ∀ l : List (Fin 32), l.foldl (scanBit t current 0#32) (.none, .none) = (.none, .none) := by
    intro l
    induction l with
    | nil => rfl
    | cons b l ih => rw [List.foldl_cons, show scanBit t current 0#32 (.none, .none) b = (.none, .none) by simp [scanBit], ih]
  exact h _

end Sys2Proof.Machine
end

