-- ==== Sys2Proof/Laws/Writes.lean ====
section
/-! SUPPORT. What it says of a register that `mayWrite` is false for a command (the registers the command leaves), and running a list of
commands one at a time. -/

namespace Sys2Proof.Machine

variable {v w : VoiceIx} {q : VReg}

theorem of_not_mayWrite_wr {n : RegNum} {imm : U16} {r : VReg} (hr : vregOf n = some r)
    (h : mayWrite (.wr w n imm) v q = false) : v ≠ w ∨ q ≠ r := by
  by_contra hn
  push Not at hn
  obtain ⟨rfl, rfl⟩ := hn
  unfold mayWrite at h
  simp [hr] at h

theorem of_not_mayWrite_kon {key : U8} (h : mayWrite (.kon v key) v q = false) :
    q ∉ [VReg.phase, .fmphase, .stage, .env, .fmexp, .age, .key] := by
  unfold mayWrite at h
  simp only [beq_self_eq_true, Bool.true_and] at h
  revert h; cases q <;> decide

theorem of_not_mayWrite_koff {key : U8} (h : mayWrite (.koff key) v q = false) : q ≠ .stage := by
  unfold mayWrite at h; simp only at h
  revert h; cases q <;> decide

theorem of_not_mayWrite_etick (h : mayWrite .etick v q = false) : q ≠ .stage ∧ q ≠ .env ∧ q ≠ .age := by
  unfold mayWrite at h; simp only at h
  revert h; cases q <;> decide

theorem of_not_mayWrite_fmdk (h : mayWrite .fmdk v q = false) : q ≠ .fmexp := by
  unfold mayWrite at h; simp only at h
  revert h; cases q <;> decide

theorem of_not_mayWrite_refr (h : mayWrite (.refr v) v q = false) : q ≠ .amp ∧ q ≠ .fmamp := by
  unfold mayWrite at h
  simp only [beq_self_eq_true, Bool.true_and] at h
  revert h; cases q <;> decide

theorem of_not_mayWrite_sync (h : mayWrite .sync v q = false) : q ≠ .phase ∧ q ≠ .fmphase := by
  unfold mayWrite at h; simp only at h
  revert h; cases q <;> decide

/-! ### Runs -/

theorem execSeq_nil (s : State) : execSeq [] s = .next s := rfl

theorem execLines_nil (s : State) : execLines [] s = .next s := rfl

theorem execLines_boundary (ls : List ListingLine) (s : State) : execLines (.boundary :: ls) s = execLines ls s.boundary := rfl

theorem execLines_reset (ls : List ListingLine) (s : State) : execLines (.reset :: ls) s = execLines ls s.resetEvent := rfl

/-- A command that finishes, and the rest of the lines. -/
theorem execLines_command {s t : State} {i : Instr} (ls : List ListingLine) (h : exec i s = .next t) (hh : t.held = false) :
    execLines (.command i :: ls) s = execLines ls t := by
  simp [execLines, h, hh]

/-- A SYNC that is held ends the run (R151). -/
theorem execLines_held {s : State} (ls : List ListingLine) (h : s.sdue = false) :
    execLines (.command .sync :: ls) s = .next s.hold := by
  simp [execLines, show exec .sync s = .next s.hold from execSync_of_not_due h]

theorem execSeq_cons {s t : State} {i : Instr} (is : List Instr) (h : exec i s = .next t) (hh : t.held = false) :
    execSeq (i :: is) s = execSeq is t := execLines_command _ h hh

/-- Only a held SYNC leaves a command waiting. -/
theorem held_of_exec {s t : State} {i : Instr} (h : exec i s = .next t) : t.held = true ↔ i = .sync ∧ s.sdue = false := by
  cases exec_next_cases h <;> simp [*]

theorem runSteps_zero (s : State) : runSteps 0 s = .next s := rfl

theorem runSteps_succ {s t : State} (k : Nat) (h : step s = .next t) : runSteps (k + 1) s = runSteps k t := by
  simp only [runSteps, Host.Core.run, show Sys2Proof.core.step s = .next t from h]
  rfl

end Sys2Proof.Machine
end

