-- ==== Sys2Proof/Tests/Slice0.lean ====
section
/-! SUPPORT. The model's own tests. Expected results come from spec/95_test_vectors.md (V<n>, P<n>) and spec/30_encoding.md R79, not from the
model. The last part shows, for each statement with hypotheses, a state and operands that meet them, at the edges of their ranges. -/

namespace Sys2Proof.Tests

open Sys2Proof Sys2Proof.Machine

/-! ### Helpers -/

/-- The state after one step on a presented word; the same state where the step answers no next one. -/
def ran (s : State) (w : Nat) : State :=
  match step (s.withFetchWord 32 w) with
  | .next t    => t
  | .fault _   => s
  | .refused _ => s

/-- What the host sees of a word's execution: the outcomes delivered and the STATUS word. -/
def seen (s : State) (w : Nat) : List CmdOutcome × U16 := ((ran s w).outcomes, (ran s w).status)

/-- The reset state with one voice set. -/
def withVoice (v : VoiceIx) (x : Voice) : State := State.reset.setVoice v x

/-- The reset state with a boundary pending and one voice set. -/
def due (v : VoiceIx) (x : Voice) : State := { withVoice v x with sdue := true }

/-- The reset state with all four voices the same and a boundary pending. -/
def due4 (x : Voice) : State := { State.reset with voices := ⟨x, x, x, x⟩, sdue := true }

/-- Stage and level of voice 0 after one ETICK. -/
def ticked (x : Voice) : Stage × U16 :=
  let t := ran (withVoice 0 x) 0x60000000
  ((t.voice 0).stage, (t.voice 0).env)

/-! ### WellFormed: an ill-formed term for each check (R71, R74, R76) -/

theorem test_op_reserved_is_ill_formed : (Fields.mk 0xA 0 0 0 0).opDefined = false ∧ (Fields.mk 0xA 0 0 0 0).wellFormed = false := by decide
theorem test_z_not_zero_is_ill_formed : (Fields.mk 1 0 1 0 0).zIsZero = false ∧ (Fields.mk 1 0 1 0 0).wellFormed = false := by decide
theorem test_v_of_etick_is_ill_formed : (Fields.mk 6 1 0 0 0).vAllowed = false ∧ (Fields.mk 6 1 0 0 0).wellFormed = false := by decide
theorem test_r_of_kon_is_ill_formed : (Fields.mk 4 0 0 1 0).rAllowed = false ∧ (Fields.mk 4 0 0 1 0).wellFormed = false := by decide
theorem test_imm_of_nop_is_ill_formed : (Fields.mk 0 0 0 0 1).immAllowed = false ∧ (Fields.mk 0 0 0 0 1).wellFormed = false := by decide
theorem test_imm_high_byte_of_kon_is_ill_formed :
    (Fields.mk 4 1 0 0 0x012A).immAllowed = false ∧ (Fields.mk 4 1 0 0 0x012A).wellFormed = false := by decide

/-! ### Decoding: a word for each command, written out from R71 to R73 (V1 to V7, V46, R79) -/

theorem test_decode_nop : decode 0b0000_00_00000_00000_0000000000000000#32 = .command .nop := by decide
theorem test_decode_wr : decode 0b0001_10_00000_01001_0001001000110100#32 = .command (.wr 2 0x09 0x1234) := by decide
theorem test_decode_rd : decode 0b0010_11_00000_10000_0000000000000000#32 = .command (.rd 3 0x10) := by decide
theorem test_decode_rdg : decode 0b0011_00_00000_00001_0000000000000000#32 = .command (.rdg 1) := by decide
theorem test_decode_kon : decode 0b0100_01_00000_00000_0000000000101010#32 = .command (.kon 1 0x2A) := by decide
theorem test_decode_koff : decode 0b0101_00_00000_00000_0000000000101010#32 = .command (.koff 0x2A) := by decide
theorem test_decode_etick : decode 0b0110_00_00000_00000_0000000000000000#32 = .command .etick := by decide
theorem test_decode_fmdk : decode 0b0111_00_00000_00000_0000000000000000#32 = .command .fmdk := by decide
theorem test_decode_refr : decode 0b1000_11_00000_00000_0000000000000000#32 = .command (.refr 3) := by decide
theorem test_decode_sync : decode 0b1001_00_00000_00000_0000000000000000#32 = .command .sync := by decide
theorem test_table_word : decodeTableWord 32 0x4400002A = some (.kon 1 0x2A) ∧ decodeTableWord 32 0xA0000000 = none := by decide

/-! ### Illegal words and refused commands, from reset (V8 to V12, V18, V64) -/

/-- V8. -/
theorem test_illegal_op : seen State.reset 0xA0000000 = ([.error .illegalOp], 0x0012) ∧ (ran State.reset 0xFFFFFFFF).status = 0x0012 := by decide
/-- V9, one word for each command. -/
theorem test_reserved_field : ∀ w ∈ [0x00000001, 0x10200000, 0x2C100001, 0x34010000, 0x4400012A, 0x54000000, 0x64000000, 0x70000001, 0x80010000, 0x9000FFFF],
    seen State.reset w = ([.error .reservedField], 0x0022) := by decide
/-- V10. -/
theorem test_bad_reg : ∀ w ∈ [0x10130000, 0x201F0000, 0x30020000], seen State.reset w = ([.error .badReg], 0x0032) := by decide
/-- V11, and V18's second word. -/
theorem test_ro_write : ∀ w ∈ [0x10110005, 0x1C12FFFF, 0x101101FF], seen State.reset w = ([.error .roWrite], 0x0042) := by decide
/-- V12a to V12c. -/
theorem test_bad_value : ∀ w ∈ [0x10080005, 0x100E0100, 0x100F0100], seen State.reset w = ([.error .badValue], 0x0052) := by decide
/-- V64: a refused command does not consume a boundary. -/
theorem test_refusal_keeps_boundary : (ran { State.reset with sdue := true } 0x9000FFFF).status = 0x0023 := by decide
/-- V19: the first code is kept. -/
theorem test_first_error_kept : (ran (ran State.reset 0x10110005) 0xA0000000).status = 0x0042 := by decide

/-! ### NOP, WR, RD, RDG (V12d to V17) -/

theorem test_nop : seen State.reset 0 = ([.done], 0) ∧ (ran State.reset 0).voices = Voices.reset := by decide
/-- V13. -/
theorem test_wr : (ran State.reset 0x18098001).voice 2 = { Voice.reset with env := 0x8001 } ∧
    (ran State.reset 0x10080004).voice 0 = { Voice.reset with stage := .release } := by decide
/-- V13, V15: the pattern is read back raw. -/
theorem test_rd : (ran (ran State.reset 0x1005FED4) 0x20050000).responses = [0xFED4] ∧ (ran State.reset 0x280F0000).responses = [0x00FF] := by decide
/-- V14, V17. -/
theorem test_rdg : (ran State.reset 0x30010000).responses = [0x0100] ∧
    (ran { State.reset with sdue := true } 0x30000000).responses = [0x0001] ∧ (ran { State.reset with sdue := true } 0x30000000).sdue = true := by decide
/-- V20: a refused read responds nothing. -/
theorem test_refused_rd_responds_nothing : (ran State.reset 0x201F0000).responses = [] := by decide

/-! ### KON, KOFF (V21 to V27) -/

/-- V21 and V23: seven registers written, parameters and latches kept. -/
theorem test_kon : (ran (withVoice 1 { Voice.reset with stage := .sustain, env := 0x8000, age := 77, phase := 0x1234, fmphase := 0x4321, fmexp := 0x0100, inc := 0x0200, amp := 77 }) 0x4400002A).voice 1 =
    { Voice.reset with stage := .attack, env := 0, age := 0, phase := 0, fmphase := 0, fmexp := 0xFFFF, key := 0x2A, inc := 0x0200, amp := 77 } := by decide
/-- V22. -/
theorem test_kon_key_zero : (ran State.reset 0x4C000000).voice 3 = { Voice.reset with stage := .attack, fmexp := 0xFFFF, key := 0 } := by decide
/-- V24. -/
theorem test_koff : (ran { State.reset with voices := ⟨{ Voice.reset with key := 5, stage := .sustain }, { Voice.reset with key := 9, stage := .decay },
      { Voice.reset with key := 5, stage := .attack }, Voice.reset⟩ } 0x50000005).voices =
    ⟨{ Voice.reset with key := 5, stage := .release }, { Voice.reset with key := 9, stage := .decay }, { Voice.reset with key := 5, stage := .release }, Voice.reset⟩ := by decide
/-- V27: an idle voice holding the key is released too. -/
theorem test_koff_idle : ∀ v, ((ran State.reset 0x500000FF).voice v).stage = .release := by decide

/-! ### ETICK (V28 to V32) -/

/-- V28, rows 2 and 3. -/
theorem test_etick_attack : ticked { Voice.reset with stage := .attack, env := 0xBFFE, atk := 0x4000 } = (.attack, 0xFFFE) ∧
    ticked { Voice.reset with stage := .attack, env := 0xBFFF, atk := 0x4000 } = (.decay, 0xFFFF) := by decide
/-- V29, rows 3, 4 and 6: the sum is exact. -/
theorem test_etick_decay : ticked { Voice.reset with stage := .decay, env := 0xB001, dcy := 0x3000, sus := 0x8000 } = (.decay, 0x8001) ∧
    ticked { Voice.reset with stage := .decay, env := 0xB000, dcy := 0x3000, sus := 0x8000 } = (.sustain, 0x8000) ∧
    ticked { Voice.reset with stage := .decay, env := 0xFFFF, dcy := 0x2000, sus := 0xF000 } = (.sustain, 0xF000) := by decide
/-- V30, V31 rows 2 and 3. -/
theorem test_etick_sustain_release : ticked { Voice.reset with stage := .sustain, env := 0x8000, atk := 1, dcy := 1, rls := 1, sus := 0x1234 } = (.sustain, 0x8000) ∧
    ticked { Voice.reset with stage := .release, env := 0x5001, rls := 0x5000 } = (.release, 0x0001) ∧
    ticked { Voice.reset with stage := .release, env := 0x5000, rls := 0x5000 } = (.idle, 0x0000) := by decide
/-- V32: an idle voice keeps its level; the age wraps. -/
theorem test_etick_idle_age : (ran (withVoice 0 { Voice.reset with env := 0x1234, atk := 5, age := 0xFFFF }) 0x60000000).voice 0 =
    { Voice.reset with env := 0x1234, atk := 5, age := 0 } := by decide

/-! ### FMDK, REFR (V40 to V44) -/

/-- V41: all four voices, idle or not. -/
theorem test_fmdk : let s : State := { State.reset with voices := ⟨{ Voice.reset with fmexp := 65535, fmdec := 256 }, { Voice.reset with fmexp := 1000, fmdec := 6554 },
      { Voice.reset with fmexp := 0, fmdec := 65535 }, { Voice.reset with fmexp := 2, fmdec := 32768 }⟩ }
    [0, 1, 2, 3].map (fun v => ((ran s 0x70000000).voice v).fmexp) = [65280, 900, 0, 1] := by decide
/-- V40: a value of 1 stays. -/
theorem test_fmdk_one_stays : ((ran (withVoice 0 { Voice.reset with fmexp := 1, fmdec := 65535 }) 0x70000000).voice 0).fmexp = 1 := by decide
/-- V42. -/
theorem test_refr_amp : ((ran (withVoice 1 { Voice.reset with ampbase := 255, env := 0xFFFF }) 0x84000000).voice 1).amp = 254 ∧
    ((ran (withVoice 1 { Voice.reset with ampbase := 255, env := 0x00FF }) 0x84000000).voice 1).amp = 0 := by decide
/-- V43 row 2 (FMDA is signed), V44 (a wrap below zero). -/
theorem test_refr_fmamp : ((ran (withVoice 1 { Voice.reset with fma0 := 1000, fmda := 0xFED4, fmexp := 0x8000 }) 0x84000000).voice 1).fmamp = 850 ∧
    ((ran (withVoice 1 { Voice.reset with fma0 := 100, fmda := 0xFED4, fmexp := 0xFFFF }) 0x84000000).voice 1).fmamp = 0xFF38 := by decide

/-! ### SYNC and the events (V49 to V63) -/

/-- V61: held, nothing delivered, still presented. -/
theorem test_sync_held : ran State.reset 0x90000000 = { State.reset with cmds := [0x90000000], held := true } := rfl
/-- V50, V52a: a modulated voice; division rounds toward zero. -/
theorem test_sync_duty : (ran (due 2 { Voice.reset with phase := 0x0FF0, inc := 0x0020, fmphase := 0xBFFF, fminc := 1, amp := 254, fmamp := 0xFF38 }) 0x90000000).duty = 0x014F ∧
    (ran (due 0 { Voice.reset with phase := 0xBF00, inc := 0x0100, amp := 1 }) 0x90000000).duty = 0x0100 := by decide
/-- V57 (nothing saturates), V58 (the accumulator's width). -/
theorem test_sync_full_scale : (ran (due4 { Voice.reset with phase := 0xBF00, inc := 0x0100, amp := 254 }) 0x90000000).duty = 0xFD10 ∧
    (ran { due4 { Voice.reset with phase := 0x3F00, inc := 0x0100, amp := 254 } with cfg := { Config.default with accW := 16, accW_ge := by decide } } 0x90000000).duty = 0x00F1 := by decide
/-- V62: two boundaries count once. -/
theorem test_boundary_lost : State.reset.boundary.boundary = { State.reset with sdue := true } := rfl
/-- V63: a reset event takes every register to its reset value. -/
theorem test_reset_event : (ran (ran State.reset 0x10110005) 0x18091234).resetEvent.status = 0 ∧
    (ran (ran State.reset 0x10110005) 0x18091234).resetEvent.voices = Voices.reset := by decide

/-! ### Listings (R77, R240) -/

/-- The state a listing from reset leaves when its turns have been taken. -/
def listed (l : List ListingLine) : State :=
  match runSteps (listingTurns false l).length (State.reset.loadListing l) with
  | .next t    => t
  | .fault _   => State.reset
  | .refused _ => State.reset

/-- R77 and P6: the SYNC a boundary lets run, runs before the next line; STATUS reads 0, then 1. -/
theorem test_listing_events_after_held_sync :
    (listed [.command .sync, .boundary, .command (.rdg 0), .boundary, .command (.rdg 0)]).responses = [0x0000, 0x0001] := by decide
/-- P6: three boundaries, two samples. -/
theorem test_listing_p6 :
    listingTurns false [.boundary, .boundary, .command .sync, .command .sync, .boundary, .command (.rdg 0)] =
      [.boundary, .boundary, .engine, .engine, .boundary, .engine, .engine] ∧
    (listed [.boundary, .boundary, .command .sync, .command .sync, .boundary, .command (.rdg 0)]).outcomes = [.done, .done, .respond 0] := by decide
/-- R240: a reset drops a held SYNC, also where a boundary came for it first, and not one listed after it (V61: that one is held). -/
theorem test_reset_drops_the_held_sync :
    (listed [.command .sync, .reset, .command .etick]).outcomes = [.done] ∧
    (∃ t, runSteps 3 { State.reset with cmds := [encode .sync], schedule := [.engine, .boundary, .reset] } = .next t ∧ t.cmds = []) ∧
    (listed [.reset, .command .sync]).held = true :=
  ⟨by decide, ⟨_, rfl, rfl⟩, by decide⟩
/-- R181: a snapshot stored later in the same tick overwrites the one before it. -/
theorem test_mailbox_keeps_the_last : ((KeyState.mk 0 0 0 false).store 1).store 2 = ⟨2, 0, 0, true⟩ := by decide

/-! ### The host's side (V46, P4, R77, R78) -/

/-- P4: four non-idle voices, the largest age is voice 0's; a tie goes to the lower index. -/
theorem test_allocator_steals : chooseVoice 14 (fun v => ⟨[10, 11, 12, 13].getD v.val 0, 1, 0x1000, [4, 3, 2, 1].getD v.val 0⟩) = 0 ∧
    chooseVoice 14 (fun v => ⟨[10, 11, 12, 13].getD v.val 0, 1, 0x1000, [2, 4, 4, 1].getD v.val 0⟩) = 1 := by decide
/-- R192 and P3, tick 12: a voice that holds the key is reused while it is non-idle, not once it is idle. -/
theorem test_allocator_retriggers : chooseVoice 7 (fun v => ⟨[7, 1, 7, 2].getD v.val 0, [0, 0, 3, 0].getD v.val 0, 0, 0⟩) = 2 ∧
    chooseVoice 0 (fun v => ⟨[0, 0xFF, 0xFF, 0xFF].getD v.val 0, 0, 0, 11⟩) = 0 := by decide

/-! ### Witnesses: each statement's hypotheses are met

One theorem for each statement of Obligations.lean that has hypotheses, named after it. -/

/-- A SYNC held, and one presented and not begun, with a reset event next. -/
theorem test_witness_ResetEventRestoresEveryRegister :
    let s : State := { State.reset with cmds := [encode .sync, encode .etick], schedule := [.reset], held := true }
    let s' : State := { State.reset with cmds := [encode .sync], schedule := [.reset] }
    (s.schedule = .reset :: [] ∧ s.held = true ∧ s.cmds = encode .sync :: [encode .etick]) ∧
    (s'.schedule = .reset :: [] ∧ s'.held = false) := by decide

/-- REFR of a voice at full level brings the amplitude latch to its bound 254. -/
theorem test_witness_EveryStepKeepsTheInvariant :
    (withVoice 1 { Voice.reset with ampbase := 255, env := 0xFFFF, amp := 254 }).Inv ∧
    ∃ t, step ((withVoice 1 { Voice.reset with ampbase := 255, env := 0xFFFF, amp := 254 }).withFetchWord 32 0x84000000) = .next t :=
  ⟨⟨by decide, by decide, by simp [withVoice, State.reset, State.resetOf]⟩, _, rfl⟩

/-- The engine's turn on an ETICK; a boundary's and a reset's turn with a WR presented. -/
theorem test_witness_IdleStaysSilentWithoutWr :
    let s := State.reset.withFetchWord 32 0x60000000
    let wr (ts : List Turn) : State := { State.reset with cmds := [encode (.wr 0 0x09 1)], schedule := ts }
    (s.idleIsSilent ∧ (∀ w v r imm, s.cmds.head? = some w → decode w ≠ .command (.wr v r imm)) ∧ ∃ t, step s = .next t) ∧
    ∀ e ∈ [Turn.boundary, .reset], (wr [e, .engine]).idleIsSilent ∧
      ¬((wr [e, .engine]).schedule = [] ∨ ∃ ts, (wr [e, .engine]).schedule = .engine :: ts) ∧ ∃ t, step (wr [e, .engine]) = .next t := by
  refine ⟨⟨by unfold State.idleIsSilent; decide, fun w v r imm h => ?_, _, rfl⟩, ?_⟩
  · cases h
    rw [show decode (BitVec.ofNat 32 (0x60000000 % 2 ^ 32)) = .command .etick by decide]
    simp
  · simp only [List.mem_cons, List.not_mem_nil, or_false]
    rintro e (rfl | rfl) <;> exact ⟨by unfold State.idleIsSilent; decide, by simp, _, rfl⟩

theorem test_witness_NoStepChangesTheConfiguration : ∃ t, step State.reset = .next t := ⟨_, rfl⟩

theorem test_witness_AcceptedCommandsLeaveTheErrorRecord :
    ∀ l ∈ [ListingLine.command (.wr 3 0x10 0xFFFF), .command (.wr 0 0x08 4), .command (.wr 0 0x0E 255), .boundary, .command (.rd 3 0x12),
        .command (.rdg 1), .command .sync], l = .boundary ∨ ∃ i, l = .command i ∧ accepted i = true := by
  simp [accepted]
  decide

theorem test_witness_EncodeOfDecodeIsTheWord : decode 0x9C000000#32 ≠ .command .sync ∧ decode 0x90000000#32 = .command .sync := by decide

/-- Operation code 10, then 9 with a field that must be zero, then a well-formed word. -/
theorem test_witness_DecodeRefusesByOpcodeThenByFields :
    9 < (Fields.ofWord 0xA0000000#32).op.toNat ∧
    ((Fields.ofWord 0x90000001#32).op.toNat ≤ 9 ∧ (Fields.ofWord 0x90000001#32).wellFormed = false) ∧
    (Fields.ofWord 0x90000000#32).wellFormed = true := by decide

theorem test_witness_StepRunsThePresentedCommand :
    ({ State.reset with cmds := [0x60000000] } : State).schedule = [] ∧ decode 0x60000000#32 = .command .etick ∧
    ({ State.reset with cmds := [0x60000000], schedule := [.engine] } : State).schedule = .engine :: [] := by decide

theorem test_witness_IllegalWordsAreRefusedWithoutEffect :
    ({ State.reset with cmds := [0xFFFFFFFF] } : State).schedule = [] ∧ decode 0xFFFFFFFF#32 = .illegal .illegalOp ∧
    ({ State.reset with cmds := [1], schedule := [.engine] } : State).schedule = .engine :: [] ∧ decode 1#32 = .illegal .reservedField := by decide

theorem test_witness_BoundaryTurnSetsOnlySdue : ({ State.reset with schedule := [.boundary] } : State).schedule = .boundary :: [] := by decide

theorem test_witness_MissedBoundaryIsLost :
    (({ State.reset with sdue := true, schedule := [.boundary] } : State).sdue = true ∧
      ({ State.reset with sdue := true, schedule := [.boundary] } : State).schedule = .boundary :: []) ∧
    ({ State.reset with cmds := [encode .sync, encode .sync], schedule := [.boundary, .boundary, .engine, .engine] } : State).cmds =
      encode .sync :: encode .sync :: [] := by decide

/-- ERR is 1 and a further refused command is presented. -/
theorem test_witness_OnlyResetClearsTheErrorRecord :
    (∃ t, step ((ran State.reset 0x10110005).withFetchWord 32 0xA0000000) = .next t) ∧
    (∀ ts, ((ran State.reset 0x10110005).withFetchWord 32 0xA0000000).schedule ≠ .reset :: ts) ∧
    ((ran State.reset 0x10110005).withFetchWord 32 0xA0000000).err = true :=
  ⟨⟨_, rfl⟩, by intro ts; simp [State.withFetchWord, present_schedule], by decide⟩

/-- A step that sets ERR, and delivers the error it records. -/
theorem test_witness_FirstRefusalSetsTheErrorRecord :
    State.reset.err = false ∧ (ran State.reset 0x10110005).err = true ∧ (ran State.reset 0x10110005).outcomes = State.reset.outcomes ++ [.error .roWrite] ∧
    (ran (ran State.reset 0x10110005) 0xA0000000).outcomes = (ran State.reset 0x10110005).outcomes ++ [.error .illegalOp] := by decide

/-- A SYNC clears SDUE; another changes DUTY. -/
theorem test_witness_OnlySyncOrResetClearsSdueOrWritesDuty :
    ((due 0 Voice.reset).sdue = true ∧ (ran (due 0 Voice.reset) 0x90000000).sdue = false) ∧
    (ran (due 0 { Voice.reset with phase := 0x3F00, inc := 0x0100, amp := 77 }) 0x90000000).duty ≠ State.reset.duty := by decide

/-- WR and KON of another voice, and each `Written by` list from the inside and from the outside. -/
theorem test_witness_CommandsWriteOnlyTheirRegisters :
    mayWrite (.wr 2 0x09 1) 2 .sus = false ∧ mayWrite (.wr 2 0x09 1) 1 .env = false ∧ mayWrite (.kon 1 7) 0 .env = false ∧
    mayWrite (.kon 1 7) 1 .amp = false ∧ mayWrite (.koff 7) 1 .env = false ∧ mayWrite .etick 0 .fmexp = false ∧
    mayWrite .fmdk 0 .fmdec = false ∧ mayWrite (.refr 1) 0 .amp = false ∧ mayWrite .sync 0 .inc = false ∧
    mayWrite .nop 0 .phase = false ∧ ∃ t, exec (.kon 1 7) State.reset = .next t :=
  ⟨by decide, by decide, by decide, by decide, by decide, by decide, by decide, by decide, by decide, by decide, _, rfl⟩

theorem test_witness_BoundaryCommutesWithCommands : Instr.rdg 1 ≠ .sync ∧ Instr.rdg 1 ≠ .rdg 0 := by decide

theorem test_witness_OnlySyncWaits : Instr.nop ≠ .sync ∧ (due 0 Voice.reset).sdue = true := by decide

/-- The edges of the ranges: register 0x10 and any value, STAGE 4, AMPBASE and KEY 255. -/
theorem test_witness_WrWritesOneRegister :
    ∀ p ∈ ([(0x00, 0xFFFF), (0x10, 0xFFFF), (0x08, 4), (0x0E, 255), (0x0F, 255)] : List (RegNum × U16)),
      p.1.toNat ≤ 0x10 ∧ (p.1 = 0x08 → p.2.toNat ≤ 4) ∧ (p.1 = 0x0E ∨ p.1 = 0x0F → p.2.toNat ≤ 255) := by simp

theorem test_witness_WrRefusalsInOrder :
    0x12 < (0x13 : RegNum).toNat ∧ 0x12 < (0x1F : RegNum).toNat ∧ ¬0x12 < (0x12 : RegNum).toNat ∧
    4 < (5 : U16).toNat ∧ ¬4 < (4 : U16).toNat ∧ 255 < (256 : U16).toNat ∧ ¬255 < (255 : U16).toNat := by decide

theorem test_witness_RdRespondsOneRegister : 0x12 < (0x13 : RegNum).toNat ∧ (0x12 : RegNum).toNat ≤ 0x12 ∧ (0x00 : RegNum).toNat ≤ 0x12 := by decide

theorem test_witness_RdgRespondsOneGlobalRegister : 1 < (2 : RegNum).toNat ∧ 1 < (0x1F : RegNum).toNat ∧ ¬1 < (1 : RegNum).toNat := by decide

/-- KOFF 0xFF finds every voice after reset, KOFF 0xFE none. -/
theorem test_witness_KoffReleasesEveryHolder :
    State.reset.reg 0 .key = (0xFF : U8).setWidth 16 ∧ State.reset.reg 0 .key ≠ (0xFE : U8).setWidth 16 := by decide

theorem test_witness_EtickLeavesIdleAndSustain :
    State.reset.reg 0 .stage = 0 ∧ (withVoice 3 { Voice.reset with stage := .sustain, env := 0xFFFF }).reg 3 .stage = 3 := by decide

/-- The headroom equal to ATK, and one more than it. -/
theorem test_witness_EtickInAttack :
    let s := withVoice 0 { Voice.reset with stage := .attack, env := 0xBFFF, atk := 0x4000 }
    let s' := withVoice 0 { Voice.reset with stage := .attack, env := 0xBFFE, atk := 0x4000 }
    (s.reg 0 .stage = 1 ∧ 65535 - (s.reg 0 .env).toNat = (s.reg 0 .atk).toNat) ∧
    (s'.reg 0 .stage = 1 ∧ 65535 - (s'.reg 0 .env).toNat = (s'.reg 0 .atk).toNat + 1) := by decide

/-- The level equal to SUS + DCY, and one more than it. -/
theorem test_witness_EtickInDecay :
    let s := withVoice 0 { Voice.reset with stage := .decay, env := 0xB000, dcy := 0x3000, sus := 0x8000 }
    let s' := withVoice 0 { Voice.reset with stage := .decay, env := 0xB001, dcy := 0x3000, sus := 0x8000 }
    (s.reg 0 .stage = 2 ∧ (s.reg 0 .env).toNat = (s.reg 0 .sus).toNat + (s.reg 0 .dcy).toNat) ∧
    (s'.reg 0 .stage = 2 ∧ (s'.reg 0 .env).toNat = (s'.reg 0 .sus).toNat + (s'.reg 0 .dcy).toNat + 1) := by decide

/-- The level equal to RLS, and one more than it. -/
theorem test_witness_EtickInRelease :
    let s := withVoice 0 { Voice.reset with stage := .release, env := 0x5000, rls := 0x5000 }
    let s' := withVoice 0 { Voice.reset with stage := .release, env := 0x5001, rls := 0x5000 }
    (s.reg 0 .stage = 4 ∧ (s.reg 0 .env).toNat = (s.reg 0 .rls).toNat) ∧
    (s'.reg 0 .stage = 4 ∧ (s'.reg 0 .env).toNat = (s'.reg 0 .rls).toNat + 1) := by decide

/-- Two states that agree in voice 2 and differ in the others and in the global registers. -/
theorem test_witness_EtickTreatsVoicesIndependently :
    (∀ r, State.reset.reg 2 r = (due 0 { Voice.reset with stage := .attack, env := 5, age := 9 }).reg 2 r) ∧
    State.reset.voices ≠ (due 0 { Voice.reset with stage := .attack, env := 5, age := 9 }).voices :=
  ⟨by intro r; cases r <;> rfl, by decide⟩

/-- An ETICK, a KON and a KOFF that change the stage of voice 0. -/
theorem test_witness_StageChangesAreTheTable :
    let s := withVoice 0 { Voice.reset with stage := .attack, env := 0xBFFF, atk := 0x4000 }
    (∀ imm, Instr.etick ≠ .wr 0 0x08 imm) ∧ (ran s 0x60000000).reg 0 .stage ≠ s.reg 0 .stage ∧
    (ran State.reset 0x40000007).reg 0 .stage ≠ State.reset.reg 0 .stage ∧
    (ran State.reset 0x500000FF).reg 0 .stage ≠ State.reset.reg 0 .stage :=
  ⟨by simp, by decide, by decide, by decide⟩

/-- A run with samples in it, a KON and a REFR of other voices and a KOFF of another key; ATK 21845 takes three ticks, exactly, and
65535 one (V33). -/
theorem test_witness_AttackLastsItsNumberOfTicks :
    let ls : List ListingLine := [.command .etick, .command (.refr 0), .boundary, .command .sync, .command (.kon 1 7), .command .etick,
      .command (.koff 7), .command .fmdk, .boundary, .command .sync, .command .etick]
    let s := withVoice 0 { Voice.reset with stage := .attack, env := 0, atk := 21845 }
    envelopeRun 0 ls s = true ∧ s.reg 0 .stage = 1 ∧ s.reg 0 .env = 0 ∧ (s.reg 0 .atk).toNat = 21845 ∧
    ls.count (.command .etick) = (65535 + 21845 - 1) / 21845 ∧
    (envelopeRun 0 (ls.take 7) s = true ∧ (ls.take 7).count (.command .etick) < (65535 + 21845 - 1) / 21845) ∧
    [ListingLine.command .etick].count (.command .etick) = (65535 + 65535 - 1) / 65535 := by decide

/-- V34: (SUS, DCY) = (0x8000, 0x7FFE) takes two ticks, (0xFFFF, 5) one. A KOFF of the key the voice holds, and a SYNC without its
boundary, are outside the statement. -/
theorem test_witness_DecayLastsItsNumberOfTicks :
    let ls : List ListingLine := [.command .etick, .command (.koff 7), .command .etick]
    let s := withVoice 0 { Voice.reset with stage := .decay, env := 0xFFFF, dcy := 0x7FFE, sus := 0x8000 }
    envelopeRun 0 ls s = true ∧ envelopeRun 0 [.command (.koff 0xFF)] s = false ∧ envelopeRun 0 [.command .sync] s = false ∧
    s.reg 0 .stage = 2 ∧ s.reg 0 .env = 0xFFFF ∧ (s.reg 0 .dcy).toNat = 0x7FFE ∧ (s.reg 0 .sus).toNat = 0x8000 ∧
    ls.count (.command .etick) = max 1 ((65535 - 0x8000 + 0x7FFE - 1) / 0x7FFE) ∧
    (envelopeRun 0 (ls.take 2) s = true ∧ (ls.take 2).count (.command .etick) < max 1 ((65535 - 0x8000 + 0x7FFE - 1) / 0x7FFE)) ∧
    [ListingLine.command .etick].count (.command .etick) = max 1 ((65535 - 0xFFFF + 5 - 1) / 5) := by decide

/-- V35: (L, RLS) = (101, 100) takes two ticks, (0, 7) one. -/
theorem test_witness_ReleaseLastsItsNumberOfTicks :
    let ls : List ListingLine := [.command .etick, .command (.rd 0 9), .command .etick]
    let s := withVoice 0 { Voice.reset with stage := .release, env := 101, rls := 100 }
    envelopeRun 0 ls s = true ∧ s.reg 0 .stage = 4 ∧ (s.reg 0 .env).toNat = 101 ∧ (s.reg 0 .rls).toNat = 100 ∧
    ls.count (.command .etick) = max 1 ((101 + 100 - 1) / 100) ∧
    (envelopeRun 0 (ls.take 2) s = true ∧ (ls.take 2).count (.command .etick) < max 1 ((101 + 100 - 1) / 100)) ∧
    [ListingLine.command .etick].count (.command .etick) = max 1 ((0 + 7 - 1) / 7) := by decide

/-- A voice in each stage; in Decay at the sustain level itself. -/
theorem test_witness_EnvelopeIsMonotone :
    let s : State := { State.reset with voices := ⟨{ Voice.reset with stage := .attack }, { Voice.reset with stage := .decay, env := 5, sus := 5 },
      { Voice.reset with stage := .sustain }, { Voice.reset with stage := .release }⟩ }
    s.reg 0 .stage = 1 ∧ s.reg 1 .stage = 2 ∧ (s.reg 1 .sus).toNat ≤ (s.reg 1 .env).toNat ∧ s.reg 2 .stage = 3 ∧ s.reg 3 .stage = 4 := by decide

theorem test_witness_FmExponentialNeverRisesNorDies :
    (∀ l ∈ [ListingLine.command .fmdk, .command .etick, .command (.kon 1 7), .boundary, .command .sync, .command .fmdk],
      l = .boundary ∨ l = .command .fmdk ∨ ∃ i, l = .command i ∧ mayWrite i 0 .fmexp = false) ∧
    1 ≤ ((withVoice 0 { Voice.reset with fmexp := 1, fmdec := 0xFFFF }).reg 0 .fmexp).toNat :=
  ⟨by simp; decide, by decide⟩

/-- FMEXP 0xFFFF with FMDA 1 and 0, FMEXP 1 with FMDA -1 and 0, FMEXP 0. -/
theorem test_witness_FmAmplitudeCorners :
    let s (x d : U16) : State := withVoice 0 { Voice.reset with fmexp := x, fmda := d }
    ((s 0xFFFF 1).reg 0 .fmexp = 0xFFFF ∧ 1 ≤ ((s 0xFFFF 1).reg 0 .fmda).toInt) ∧ ((s 0xFFFF 0).reg 0 .fmda).toInt ≤ 0 ∧
    ((s 1 0xFFFF).reg 0 .fmexp = 1 ∧ ((s 1 0xFFFF).reg 0 .fmda).toInt < 0) ∧ 0 ≤ ((s 1 0).reg 0 .fmda).toInt ∧
    (s 0 5).reg 0 .fmexp = 0 := by decide

theorem test_witness_SyncHoldsWithoutABoundary : State.reset.sdue = false := by decide

theorem test_witness_SyncAdvancesEveryPhase : (due 1 { Voice.reset with phase := 0xFFF0, inc := 0x0020 }).sdue = true := by decide

theorem test_witness_SyncWritesTheQuantisedMix :
    (due 2 { Voice.reset with phase := 0x0FF0, inc := 0x0020, fmphase := 0xBFFF, fminc := 1, amp := 254, fmamp := 0xFF38 }).sdue = true := by decide

/-- Every latch at its bound 254. -/
theorem test_witness_DefaultDutyStaysInRange :
    let s := due4 { Voice.reset with phase := 0xBF00, inc := 0x0100, amp := 254 }
    s.cfg = Config.default ∧ s.sdue = true ∧ ∀ v, (s.reg v .amp).toNat ≤ 254 := ⟨rfl, rfl, by decide⟩

/-- A running phase under a latch of 0 (V48). -/
theorem test_witness_SilenceIsTheMidpoint :
    let s := due 0 { Voice.reset with phase := 0x1234, inc := 0x0100, fmphase := 0x4000, fmamp := 5000 }
    s.sdue = true ∧ ∀ v, s.reg v .amp = 0 := by decide

/-- Two states whose voices are the same but for a swap of voices 0 and 1. -/
theorem test_witness_VoiceOrderDoesNotMatter :
    let a : Voice := { Voice.reset with phase := 0x3F00, inc := 0x0100, amp := 30 }
    (due 0 a).sdue = true ∧ (due 1 a).sdue = true ∧ (due 1 a).cfg = (due 0 a).cfg ∧
    ∀ v r, (due 1 a).reg v r = (due 0 a).reg (Equiv.swap (0 : VoiceIx) 1 v) r := by
  refine ⟨by decide, by decide, rfl, ?_⟩
  intro v r
  fin_cases v <;> cases r <;> decide

/-- No engine turn and three before the boundary, and more turns behind the SYNC's. -/
theorem test_witness_HeldSyncRunsAfterABoundary :
    let s (n : Nat) : State := { State.reset with cmds := [encode .sync], schedule := List.replicate n .engine ++ [.boundary, .engine, .reset] }
    ((s 0).cmds = encode .sync :: [] ∧ (s 0).sdue = false ∧ (s 0).schedule = List.replicate 0 .engine ++ .boundary :: .engine :: [.reset]) ∧
    ((s 3).cmds = encode .sync :: [] ∧ (s 3).sdue = false ∧ (s 3).schedule = List.replicate 3 .engine ++ .boundary :: .engine :: [.reset]) := by
  decide

/-- P3's operands. -/
def p3Params : VoiceParams := ⟨0x0200, 0x0400, 0x0100, 0x0300, 0x0400, 0x4000, 0x3000, 0x8000, 0x5000, 200⟩

theorem test_witness_NoteOnSetsUpOneVoice : p3Params.ampbase.toNat ≤ 255 ∧ ({ p3Params with ampbase := 255 } : VoiceParams).ampbase.toNat ≤ 255 := by decide

/-- A case for each of the three steps. -/
theorem test_witness_AllocatorTriesTheThreeSteps :
    let holder (v : VoiceIx) : VoiceView := ⟨if v = 2 then 7 else 1, if v = 2 then 3 else 0, 0, 0⟩
    let full (v : VoiceIx) : VoiceView := ⟨[10, 11, 12, 13].getD v.val 0, 1, 0x1000, [4, 4, 2, 1].getD v.val 0⟩
    (∃ v, (holder v).key = (7 : U8).setWidth 16 ∧ ¬((holder v).stage = 0 ∧ (holder v).env = 0)) ∧
    (¬(∃ v, (holder v).key = (9 : U8).setWidth 16 ∧ ¬((holder v).stage = 0 ∧ (holder v).env = 0)) ∧ ∃ v, (holder v).stage = 0 ∧ (holder v).env = 0) ∧
    (¬(∃ v, (full v).key = (14 : U8).setWidth 16 ∧ ¬((full v).stage = 0 ∧ (full v).env = 0)) ∧ ¬∃ v, (full v).stage = 0 ∧ (full v).env = 0) := by decide

/-- Two voices sounding on two keys. -/
theorem test_witness_AllocationKeepsOneVoicePerKey :
    (ran (ran State.reset 0x4000000A) 0x4400000B).oneVoicePerKey := by unfold State.oneVoicePerKey; decide

/-- The tables of P3, with a key line for key 0 and one for the instrument-select sentinel. -/
def p3Tables : HostTables where
  keymap         := .logicalKey 0 :: .instrumentSelect :: List.replicate 30 .none
  nKeys          := 1
  refKey         := 0
  scanOrder      := ascendingScan
  instr          := List.replicate 12 ⟨200, 0, 0x4000, 0x3000, 0x80, 0x5000, 0x200, 0x400, 0x100, 0x400⟩
  toneInc        := 0x200 :: List.replicate 47 0
  keymap_length  := by decide
  nKeys_le       := by decide
  keymap_keys    := by simp
  refKey_lt      := by decide
  scanOrder_all  := by simp [ascendingScan]
  scanOrder_once := by decide
  instr_length   := by decide
  toneInc_length := by decide
  pitch_lt       := by simp

/-- P3: the operands the host derives for key 0 (R197). -/
theorem test_assign_params : assignParams p3Tables (currentInstrument p3Tables RefHost.initial) 0 = p3Params := by decide

/-- Bits 0 and 1 changed, both pressed, then both released; after bit 1 only unbound lines. -/
theorem test_witness_LastKeyChangeWins :
    p3Tables.scanOrder = [0] ++ 1 :: (ascendingScan.drop 2) ∧ (3 : BitVec 32).getLsbD 1 = true ∧
    p3Tables.keymap[1]? = some .instrumentSelect ∧ KeyBinding.instrumentSelect ≠ .none ∧ (0 : BitVec 32).getLsbD 1 = false ∧
    (∀ c ∈ ascendingScan.drop 2, p3Tables.keymap[c.val]? = some .none) := by decide

theorem test_witness_InstrumentIndexWrapsAtTwelve :
    ({ RefHost.initial with pressed := .instrumentSelect, instrument := 11 } : RefHost).pressed = .instrumentSelect ∧
    RefHost.initial.pressed ≠ .instrumentSelect := by decide

/-- No snapshot; a new one in which no line changed; a new one in which only the unbound line 5 changed. -/
theorem test_witness_QuietControlTickIsCtick :
    let h (k : KeyState) : RefHost := { RefHost.initial with keys := k }
    let quiet (h : RefHost) : Prop :=
      h.keys.updated = true → translateKeys p3Tables h.keys.current (h.keys.current ^^^ h.keys.previous) = (.none, .none)
    (RefHost.initial.phase = .act 0 ∧ quiet RefHost.initial) ∧
    (h ⟨3, 3, 0, true⟩).phase = .act 0 ∧ quiet (h ⟨3, 3, 0, true⟩) ∧ quiet (h ⟨0x21, 0x01, 0, true⟩) := by decide

end Sys2Proof.Tests
end

section
/-! The statements of spec/00_scope.md: a step runs the presented command, every command but a waiting SYNC finishes, no step changes
the configuration, and every step keeps the invariant. For the invariant, one lemma for each of its parts says what a command can do
to that part: the amplitude latch, the error record, a SYNC that waits. -/

namespace Sys2Proof.Machine

variable {s t : State} {i : Instr}

/-! ### The engine's turn on a command (R44, R62) -/

theorem turnTaken_of_schedule_nil (h : s.schedule = []) : s.turnTaken = s := by
  cases s
  simp only at h
  subst h
  rfl

theorem turnTaken_of_schedule_cons {u : Turn} {ts : List Turn} (h : s.schedule = u :: ts) :
    s.turnTaken = { s with schedule := ts } := by
  simp [State.turnTaken, h]

theorem engineTurn_of_command {w : CmdWord} {rest : List CmdWord} (hc : s.cmds = w :: rest) (hd : decode w = .command i) :
    engineTurn s = exec i s := by
  simp [engineTurn, hc, hd]

/-- Settles O13: the engine's step is its turn on the state without the turn taken, and that turn executes the command. -/
theorem stepRunsThePresentedCommand : Obligations.StepRunsThePresentedCommand := by
  intro s w rest i hc hd
  have run (h : s.engineNext) : step s = exec i s.turnTaken := by
    rw [step_of_engineNext h, engineTurn_of_command (s := s.turnTaken) hc hd]
  constructor
  · intro h
    rw [run (.inl h), turnTaken_of_schedule_nil h]
  · intro ts h
    rw [run (.inr ⟨ts, h⟩), turnTaken_of_schedule_cons h]

/-! ### Every command finishes but a SYNC that waits (R15, R151) -/

/-- `finish` and `raise CmdError` end every case of `exec` but the held SYNC. -/
theorem ExecNext.finishes (h : ExecNext i s t) (hi : i ≠ .sync ∨ s.sdue = true) :
    ∃ o, o ≠ .hold ∧ t.cmds = s.cmds.tail ∧ t.outcomes = s.outcomes ++ [o] := by
  cases h with
  | syncHeld h => simp [h] at hi
  | wrRefused | rdRefused | rdgRefused =>
    exact ⟨.error _, by simp, raiseCmdError_cmds .., raiseCmdError_outcomes ..⟩
  | rd | rdgStatus | rdgDuty => exact ⟨.respond _, by simp, finish_cmds .., finish_outcomes ..⟩
  | _ => exact ⟨.done, by simp, finish_cmds .., finish_outcomes ..⟩

/-- Settles O22, by the cases of the command's execution. -/
theorem onlySyncWaits : Obligations.OnlySyncWaits := by
  intro i s hi
  obtain ⟨t, ht⟩ := ExecNext.exists_next i s
  obtain ⟨o, ho, hcmds, hout⟩ := ht.finishes hi
  exact ⟨t, o, ht.exec_eq, ho, hcmds, hout⟩

/-! ### The configuration (R242) -/

/-- No command writes the configuration. -/
theorem ExecNext.cfg_eq (h : ExecNext i s t) : t.cfg = s.cfg := by
  cases h <;> simp

/-- Settles O7: no agent's turn writes the configuration. -/
theorem noStepChangesTheConfiguration : Obligations.NoStepChangesTheConfiguration := by
  intro s t h
  cases step_next_cases h with
  | command _ _ _ hx => exact hx.cfg_eq
  | illegal => exact raiseCmdError_cfg ..
  | boundary | reset | idle => rfl

/-! ### The amplitude latch (R39, R136) -/

/-- The latch is told by its register (R53). -/
theorem amp_eq_of_readReg {x y : Voice} (h : x.readReg .amp = y.readReg .amp) : x.amp = y.amp := by
  have := congrArg (BitVec.setWidth 8) h
  simpa [Voice.readReg] using this

theorem amp_writeReg (x : Voice) (r : VReg) (imm : U16) : (x.writeReg r imm).amp = x.amp := by
  cases r <;> rfl

theorem amp_releaseKey (x : Voice) (key : U8) : (x.releaseKey key).amp = x.amp :=
  amp_eq_of_readReg (readReg_releaseKey_of_ne x key (by decide))

theorem amp_controlTick (x : Voice) : x.controlTick.amp = x.amp := by
  have h : x.controlTick.readReg .amp = x.readReg .amp :=
    (readReg_controlTick x (by decide)).trans (readReg_envStep_of_ne x (by decide) (by decide))
  exact amp_eq_of_readReg h

/-- Replacing a bank by one with the same latch leaves every latch. -/
theorem amp_setVoice {w : VoiceIx} {x : Voice} (h : x.amp = (s.voice w).amp) (v : VoiceIx) :
    ((s.setVoice w x).voice v).amp = (s.voice v).amp := by
  rw [voice_setVoice]
  split
  · next hv => rw [hv, h]
  · rfl

/-- A command leaves a latch as it was, or recomputes it: REFR is the only one that writes it (R39). -/
theorem ExecNext.amp_cases (h : ExecNext i s t) (v : VoiceIx) :
    (t.voice v).amp = (s.voice v).amp ∨ (t.voice v).amp = (s.voice v).ampValue := by
  cases h with
  | refr _ w =>
    rw [voice_finish, voice_setVoice]
    split
    · next hv => subst hv; exact .inr rfl
    · exact .inl rfl
  | wr _ w => exact .inl (amp_setVoice (amp_writeReg ..) v)
  | kon _ w key => exact .inl (amp_setVoice (x := (s.voice w).claim key) rfl v)
  | koff => left; simp [amp_releaseKey]
  | etick => left; simp [amp_controlTick]
  | fmdk => left; simp [Voice.fmDecay]
  | syncRuns => left; rw [voice_finish, voice_sampleUpdate]; rfl
  | wrRefused | rdRefused | rdgRefused => left; rw [voice_raiseCmdError]
  | nop | rd | rdgStatus | rdgDuty | syncHeld => exact .inl rfl

theorem ExecNext.amp_le (h : ExecNext i s t) (hs : ∀ v, (s.voice v).amp.toNat ≤ 254) (v : VoiceIx) :
    (t.voice v).amp.toNat ≤ 254 := by
  obtain h | h := h.amp_cases v
  · rw [h]; exact hs v
  · rw [h]; exact ampValue_le _

/-! ### The error record (R211, R212) -/

theorem errorRecordOk_of_eq (he : t.err = s.err) (hc : t.errcode = s.errcode) (hs : s.errorRecordOk = true) :
    t.errorRecordOk = true := by
  unfold State.errorRecordOk at *
  rwa [he, hc]

/-- The codes of R212 are 1 to 5. -/
theorem errorCode_bounds (c : CmdError) : 1 ≤ (errorCode c).toNat ∧ (errorCode c).toNat ≤ 5 := by
  cases c <;> decide

theorem errorRecordOk_raiseCmdError (c : CmdError) (hs : s.errorRecordOk = true) :
    (s.raiseCmdError c).errorRecordOk = true := by
  by_cases h : s.err = true
  · exact errorRecordOk_of_eq (by simp [h]) (by simp [h]) hs
  · simp [State.errorRecordOk, h, errorCode_bounds c]

/-- A command records no error, or is refused by `raise CmdError` alone (R211). -/
theorem ExecNext.errorRecord_cases (h : ExecNext i s t) :
    (t.err = s.err ∧ t.errcode = s.errcode) ∨ ∃ c, t = s.raiseCmdError c := by
  cases h with
  | wrRefused | rdRefused | rdgRefused => exact .inr ⟨_, rfl⟩
  | _ => exact .inl ⟨rfl, rfl⟩

theorem ExecNext.errorRecordOk (h : ExecNext i s t) (hs : s.errorRecordOk = true) : t.errorRecordOk = true := by
  obtain ⟨he, hc⟩ | ⟨c, rfl⟩ := h.errorRecord_cases
  · exact errorRecordOk_of_eq he hc hs
  · exact errorRecordOk_raiseCmdError c hs

/-! ### A SYNC that waits (R46, R151) -/

theorem maskTest_of_decode {w : CmdWord} (h : decode w = .command i) : w &&& maskOf i = matchOf i := by
  unfold decode at h
  split at h
  · cases h
  · split at h
    · next hm => cases h; exact hm
    · cases h

/-- Every bit of SYNC's word is fixed (R73). -/
theorem eq_encode_sync_of_decode {w : CmdWord} (h : decode w = .command .sync) : w = encode .sync := by
  have hm : w &&& BitVec.allOnes 32 = encode .sync := maskTest_of_decode h
  rwa [BitVec.and_allOnes] at hm

/-- Only a held SYNC is held, and it stays presented (R15). -/
theorem ExecNext.cmds_of_held (h : ExecNext i s t) (ht : t.held = true) : i = .sync ∧ t.cmds = s.cmds := by
  obtain ⟨rfl, hdue⟩ := (held_of_exec h.exec_eq).mp ht
  cases h with
  | syncRuns h => simp [h] at hdue
  | syncHeld => exact ⟨rfl, hold_cmds s⟩

/-! ### The invariant -/

theorem State.Inv.turnTaken (h : s.Inv) : s.turnTaken.Inv := ⟨h.amp_le, h.errorOk, h.heldSync⟩

theorem State.Inv.boundary (h : s.Inv) : s.boundary.Inv := ⟨h.amp_le, h.errorOk, h.heldSync⟩

theorem State.Inv.raiseCmdError (h : s.Inv) (c : CmdError) : (s.raiseCmdError c).Inv where
  amp_le v := by rw [voice_raiseCmdError]; exact h.amp_le v
  errorOk := errorRecordOk_raiseCmdError c h.errorOk
  heldSync := by simp

/-- A reset event brings the invariant about, whatever the state before. -/
theorem inv_resetEvent (s : State) : s.resetEvent.Inv where
  amp_le v := by rw [voice_resetEvent]; decide
  errorOk := rfl
  heldSync := by simp

/-- The presented command, executed, keeps the invariant. -/
theorem State.Inv.execNext {w : CmdWord} {ws : List CmdWord} (h : s.Inv) (hc : s.cmds = w :: ws) (hd : decode w = .command i)
    (hx : ExecNext i s t) : t.Inv where
  amp_le := hx.amp_le h.amp_le
  errorOk := hx.errorRecordOk h.errorOk
  heldSync ht := by
    obtain ⟨rfl, hcmds⟩ := hx.cmds_of_held ht
    rw [hcmds, hc, eq_encode_sync_of_decode hd, List.head?_cons]

/-- Settles O4, by the cases of a step. -/
theorem everyStepKeepsTheInvariant : Obligations.EveryStepKeepsTheInvariant := by
  intro s t hs h
  have hs' : s.turnTaken.Inv := hs.turnTaken
  cases step_next_cases h with
  | boundary => exact hs'.boundary
  | reset => exact inv_resetEvent _
  | idle => exact hs'
  | illegal => exact hs'.raiseCmdError _
  | command _ hc hd hx => exact hs'.execNext hc hd hx

end Sys2Proof.Machine
end

section
/-! The reset state, and the two commands that leave every register: NOP and a SYNC that waits (spec/10_state.md R46, R48). -/

namespace Sys2Proof.Machine

/-- A reset event leaves the reset state as it is, so what holds after every reset event holds of it. -/
theorem resetEvent_resetOf (cfg : Config) : (State.resetOf cfg).resetEvent = State.resetOf cfg := rfl

theorem reg_resetOf (cfg : Config) (v : VoiceIx) (r : VReg) :
    (State.resetOf cfg).reg v r = if r = .key then 0xFF else 0 := by
  rw [← resetEvent_resetOf, State.reg, voice_resetEvent, readReg_reset]

/-- A value is the narrowing of its own number (R11). -/
theorem wrapu_unsigned {n : Nat} (x : BitVec n) : wrapu n (unsigned x) = x := by
  simp [wrapu, unsigned]

/-- Settles O1: every bank is `Voice.reset`, whose registers `readReg_reset` gives. -/
theorem resetGivesEveryRegisterItsValue : Obligations.ResetGivesEveryRegisterItsValue :=
  ⟨reg_resetOf, fun cfg => ⟨(wrapu_unsigned cfg.outMid).symm, rfl, rfl, rfl, rfl⟩, rfl, rfl⟩

theorem inv_resetOf (cfg : Config) : (State.resetOf cfg).Inv := inv_resetEvent (State.resetOf cfg)

/-- Settles O3, by what a reset event brings about. -/
theorem resetMeetsTheInvariant : Obligations.ResetMeetsTheInvariant := ⟨inv_resetOf Config.default, inv_resetOf⟩

/-- Settles O27: NOP is `finish` alone. -/
theorem nopChangesNothing : Obligations.NopChangesNothing := fun s =>
  ⟨s.finish .done, (ExecNext.nop s).exec_eq, finishedWith_finish s .done, finish_voices s .done⟩

/-- Settles O47: the held SYNC's case of `exec`. -/
theorem syncHoldsWithoutABoundary : Obligations.SyncHoldsWithoutABoundary :=
  fun _ h => (ExecNext.syncHeld h).exec_eq

end Sys2Proof.Machine
end

section
/-! Reading the registers: a voice register by its name and its number (spec/20_memory.md R51, R53, R60), and the global registers by
RDG (spec/40_register_access.md R94). -/

namespace Sys2Proof.Machine

variable (s : State) (v : VoiceIx)

/-! ### Voice registers -/

theorem stageCode_toNat (g : Stage) :
    ((stageCode g).setWidth 16).toNat =
      match g with
      | .idle => 0 | .attack => 1 | .decay => 2 | .sustain => 3 | .release => 4 := by
  cases g <;> rfl

@[simp] theorem readVreg_number (r : VReg) : s.readVreg v (vregNumber r) = some (s.reg v r) := by
  simp [State.readVreg]

theorem readVreg_eq_none (n : RegNum) : s.readVreg v n = none ↔ 0x12 < n.toNat := by
  rw [State.readVreg, Option.map_eq_none_iff, vregOf_eq_none]

/-- Settles O28: the literal numbers are those of `vregNumber`, by which `readVreg_number` reads. -/
theorem readsAreZeroExtended : Obligations.ReadsAreZeroExtended := by
  intro s v
  have number := readVreg_number s v
  refine ⟨?words, ?bytes, ?stage, ?numbers, number, readVreg_eq_none s v⟩
  case words => exact ⟨rfl, rfl, rfl, rfl, rfl, rfl, rfl, rfl, rfl, rfl, rfl, rfl, rfl, rfl, rfl⟩
  case bytes => exact ⟨setWidth_byte_toNat _, setWidth_byte_toNat _, setWidth_byte_toNat _⟩
  case stage => exact stageCode_toNat (s.voice v).stage
  case numbers =>
    exact ⟨number .phase, number .inc, number .fmphase, number .fminc, number .fma0, number .fmda, number .fmexp, number .fmdec,
      number .stage, number .env, number .atk, number .dcy, number .sus, number .rls, number .ampbase, number .key,
      number .age, number .amp, number .fmamp⟩

/-! ### Global registers -/

/-- The bits of STATUS (R42): SDUE is bit 0, ERR bit 1, ERRCODE bits 7:4. -/
theorem status_toNat : s.status.toNat = s.sdue.toNat + 2 * s.err.toNat + 16 * s.errcode.toNat := by
  have bits : ∀ (c : BitVec 4) (e d : Bool),
      (0#8 ++ c ++ 0#2 ++ BitVec.ofBool e ++ BitVec.ofBool d).toNat = d.toNat + 2 * e.toNat + 16 * c.toNat := by decide
  exact bits s.errcode s.err s.sdue

/-- A refused command delivers no value (R93). -/
@[simp] theorem responses_raiseCmdError (c : CmdError) : (s.raiseCmdError c).responses = s.responses := by
  simp [State.responses]

/-- Settles O26: the three cases of RDG's execution. -/
theorem rdgRespondsOneGlobalRegister : Obligations.RdgRespondsOneGlobalRegister := by
  intro s
  refine ⟨?status, ?duty, ?reserved⟩
  case status =>
    exact ⟨_, s.status, (ExecNext.rdgStatus s).exec_eq, finishedWith_finish .., finish_voices .., status_toNat s⟩
  case duty => exact ⟨_, (ExecNext.rdgDuty s).exec_eq, finishedWith_finish .., finish_voices ..⟩
  case reserved =>
    intro g hg
    exact ⟨_, (ExecNext.rdgRefused s (gregOf_eq_none.mpr hg)).exec_eq, refusedWith_raiseCmdError .., responses_raiseCmdError ..⟩

end Sys2Proof.Machine
end

section
/-! What a step can do to STATUS and DUTY: only a refusal writes the error record but a reset (spec/60_exceptions.md R211), and only a
SYNC that runs clears SDUE or writes DUTY but a reset (R217). -/

namespace Sys2Proof.Machine

variable {s t : State} {i : Instr}

/-! ### The error record -/

/-- The step delivered no error and set no ERR. -/
def addsNoError (s t : State) : Prop :=
  (t.err = true → s.err = true) ∧ ∀ c, t.outcomes ≠ s.outcomes ++ [.error c]

theorem addsNoError_of_same (he : t.err = true → s.err = true) (ho : t.outcomes = s.outcomes) : addsNoError s t :=
  ⟨he, fun c => by simp [ho]⟩

theorem addsNoError_finish {u : State} {o : CmdOutcome} (he : u.err = s.err) (hu : u.outcomes = s.outcomes)
    (ho : ∀ c, o ≠ .error c) : addsNoError s (u.finish o) :=
  ⟨fun h => he ▸ h, fun c => by simp [hu, ho c]⟩

/-- A command is refused by `raise CmdError`, or it delivers no error. -/
theorem ExecNext.refused_or_addsNoError (h : ExecNext i s t) : (∃ c, t = s.raiseCmdError c) ∨ addsNoError s t := by
  cases h with
  | wrRefused | rdRefused | rdgRefused => exact .inl ⟨_, rfl⟩
  | syncHeld => exact .inr (addsNoError_of_same id rfl)
  | _ => exact .inr (addsNoError_finish rfl rfl (by simp))

/-- A step refuses the presented word by `raise CmdError`, or it delivers no error. -/
theorem StepNext.refused_or_addsNoError (h : StepNext s t) :
    (∃ c, t = s.turnTaken.raiseCmdError c) ∨ addsNoError s t := by
  cases h with
  | illegal => exact .inl ⟨_, rfl⟩
  | command _ _ _ hx => exact hx.refused_or_addsNoError
  | boundary | idle => exact .inr (addsNoError_of_same id rfl)
  | reset => exact .inr (addsNoError_of_same (by simp) rfl)

/-- Settles O18. -/
theorem firstRefusalSetsTheErrorRecord : Obligations.FirstRefusalSetsTheErrorRecord := by
  intro s t h
  obtain ⟨c, rfl⟩ | ⟨herr, hout⟩ := (step_next_cases h).refused_or_addsNoError
  · constructor
    · intro hs _
      exact ⟨c, raiseCmdError_outcomes .., by simp [hs]⟩
    · intro c' hc
      obtain rfl : c = c' := by simpa using hc
      exact ⟨raiseCmdError_err .., raiseCmdError_errcode ..⟩
  · constructor
    · intro hs ht
      simp [herr ht] at hs
    · intro c hc
      exact absurd hc (hout c)

/-! ### SDUE and DUTY -/

/-- A command leaves SDUE and DUTY, or is a SYNC that found its boundary and finishes. -/
theorem ExecNext.sdue_duty_cases (h : ExecNext i s t) :
    (t.sdue = s.sdue ∧ t.duty = s.duty) ∨ (i = .sync ∧ s.sdue = true ∧ t.cmds = s.cmds.tail) := by
  cases h with
  | syncRuns h => exact .inr ⟨rfl, h, rfl⟩
  | wrRefused | rdRefused | rdgRefused => exact .inl ⟨raiseCmdError_sdue .., raiseCmdError_duty ..⟩
  | _ => exact .inl ⟨rfl, rfl⟩

/-- Settles O19, by the cases of a step: a boundary sets SDUE, and an illegal word or no word leaves it. -/
theorem onlySyncOrResetClearsSdueOrWritesDuty : Obligations.OnlySyncOrResetClearsSdueOrWritesDuty := by
  intro s t h hchange
  have changed : ¬(t.sdue = s.sdue ∧ t.duty = s.duty) := by
    rintro ⟨hsdue, hduty⟩
    simp [hsdue, hduty] at hchange
  cases step_next_cases h with
  | boundary => simp at hchange
  | reset hr => exact .inl ⟨_, hr⟩
  | idle => exact absurd ⟨rfl, rfl⟩ changed
  | illegal => exact absurd ⟨raiseCmdError_sdue .., raiseCmdError_duty ..⟩ changed
  | command _ hc hd hx =>
    obtain hsame | ⟨rfl, hdue, hcmds⟩ := hx.sdue_duty_cases
    · exact absurd hsame changed
    · refine .inr ⟨_, ?_, hdue, hcmds⟩
      rw [turnTaken_cmds, hc, eq_encode_sync_of_decode hd, List.tail_cons]

end Sys2Proof.Machine
end

section
/-! Two claims about the envelope of one bank, across an ETICK and across any command but a WR: which way the level moves
(spec/42_envelope.md R123), and that a voice in stage Idle is silent (spec/10_state.md R36). -/

namespace Sys2Proof.Machine

/-! ### The direction of the level, by stage (R112 to R116) -/

section
variable {x : Voice}

theorem le_envStep_env_of_attack (h : x.stage = .attack) : x.env.toNat ≤ x.envStep.env.toNat := by
  have := x.env.isLt
  rw [envStep_of_attack h]
  split <;> simp <;> omega

theorem envStep_env_le_of_release (h : x.stage = .release) : x.envStep.env.toNat ≤ x.env.toNat := by
  have := x.env.isLt
  rw [envStep_of_release h]
  split <;> simp
  omega

theorem envStep_env_of_idle_or_sustain (h : x.stage = .idle ∨ x.stage = .sustain) : x.envStep.env = x.env := by
  obtain h | h := h
  · rw [envStep_of_idle h]
  · rw [envStep_of_sustain h]

theorem envStep_env_bounds_of_decay (h : x.stage = .decay) (hsus : x.sus.toNat ≤ x.env.toNat) :
    x.sus.toNat ≤ x.envStep.env.toNat ∧ x.envStep.env.toNat ≤ x.env.toNat := by
  have := x.env.isLt
  rw [envStep_of_decay h]
  split <;> simp <;> omega

end

/-- The level after an ETICK is the one `env_step` gives. -/
theorem reg_env_etick (s : State) (v : VoiceIx) :
    ((s.mapVoices Voice.controlTick).finish .done).reg v .env = (s.voice v).envStep.env := by
  rw [reg_finish, reg_mapVoices, readReg_controlTick _ (by decide)]
  rfl

/-- Settles O41: for each stage, what `env_step` does to the level. -/
theorem envelopeIsMonotone : Obligations.EnvelopeIsMonotone := by
  intro s v
  refine ⟨_, (ExecNext.etick s).exec_eq, ?_⟩
  rw [reg_env_etick]
  refine ⟨fun h => ?attack, fun h => ?release, fun h => ?constant, fun h hsus => ?decay⟩
  case attack => exact le_envStep_env_of_attack (reg_stage_eq.mp h)
  case release => exact envStep_env_le_of_release (reg_stage_eq.mp h)
  case constant => exact envStep_env_of_idle_or_sustain (h.imp reg_stage_eq.mp reg_stage_eq.mp)
  case decay => exact envStep_env_bounds_of_decay (reg_stage_eq.mp h) hsus

/-! ### Silence in Idle (R36) -/

/-- In stage Idle the bank is at level 0: `State.idleIsSilent` asks it of every bank. -/
def Voice.silentIfIdle (x : Voice) : Prop := x.stage = .idle → x.env = 0

theorem silentIfIdle_reset : Voice.reset.silentIfIdle := fun _ => rfl

/-- KON leaves stage Attack. -/
theorem silentIfIdle_claim (x : Voice) (key : U8) : (x.claim key).silentIfIdle := nofun

/-- KOFF leaves stage Release, or the bank as it was. -/
theorem Voice.silentIfIdle.releaseKey {x : Voice} (h : x.silentIfIdle) (key : U8) : (x.releaseKey key).silentIfIdle := by
  by_cases hk : x.key = key
  · rw [releaseKey_of_eq hk]; nofun
  · rwa [releaseKey_of_ne hk]

/-- `env_step` enters Idle at level 0 alone (R116). -/
theorem Voice.silentIfIdle.envStep {x : Voice} (h : x.silentIfIdle) : x.envStep.silentIfIdle := by
  cases hs : x.stage with
  | idle => rwa [envStep_of_idle hs]
  | sustain => rwa [envStep_of_sustain hs]
  | attack => rw [envStep_of_attack hs]; split <;> simp [silentIfIdle, hs]
  | decay => rw [envStep_of_decay hs]; split <;> simp [silentIfIdle, hs]
  | release => rw [envStep_of_release hs]; split <;> simp [silentIfIdle, hs]

theorem State.idleIsSilent.setVoice {s : State} (h : s.idleIsSilent) (v : VoiceIx) {x : Voice} (hx : x.silentIfIdle) :
    (s.setVoice v x).idleIsSilent := by
  intro w
  rw [voice_setVoice]
  split
  · exact hx
  · exact h w

theorem State.idleIsSilent.mapVoices {s : State} (h : s.idleIsSilent) {f : Voice → Voice}
    (hf : ∀ x : Voice, x.silentIfIdle → (f x).silentIfIdle) : (s.mapVoices f).idleIsSilent := by
  intro v
  rw [voice_mapVoices]
  exact hf _ (h v)

theorem State.idleIsSilent.of_voices {s t : State} (h : s.idleIsSilent) (hv : t.voices = s.voices) : t.idleIsSilent := by
  intro v
  rw [voice_eq_of_voices hv]
  exact h v

/-- FMDK, REFR and SYNC leave STAGE and ENV. -/
theorem ExecNext.idleIsSilent {i : Instr} {s t : State} (hx : ExecNext i s t) (h : s.idleIsSilent)
    (hi : ∀ v r imm, i ≠ .wr v r imm) : t.idleIsSilent := by
  cases hx with
  | wr _ v => exact absurd rfl (hi v _ _)
  | wrRefused _ v => exact absurd rfl (hi v _ _)
  | kon _ v key => exact h.setVoice v (silentIfIdle_claim _ key)
  | koff _ key => exact h.mapVoices fun _ hv => hv.releaseKey key
  | etick => exact h.mapVoices fun _ hv => hv.envStep
  | fmdk => exact h.mapVoices (f := Voice.fmDecay) fun _ hv => hv
  | refr _ v => exact h.setVoice v (x := (s.voice v).refresh) (h v)
  | syncRuns => exact h.mapVoices (f := Voice.advance) fun _ hv => hv
  | rdRefused | rdgRefused => exact h.of_voices (raiseCmdError_voices ..)
  | nop | rd | rdgStatus | rdgDuty | syncHeld => exact h

/-- Settles O5, by the cases of a step. -/
theorem idleStaysSilentWithoutWr : Obligations.IdleStaysSilentWithoutWr := by
  intro s t hs hwr h
  cases step_next_cases h with
  | boundary | idle => exact hs
  | reset => intro v; rw [voice_resetEvent]; exact silentIfIdle_reset
  | illegal => exact hs.of_voices (raiseCmdError_voices ..)
  | command he hc hd hx =>
    refine hx.idleIsSilent hs ?_
    rintro v r imm rfl
    exact hwr he _ v r imm (by rw [hc, List.head?_cons]) hd

end Sys2Proof.Machine
end

section
/-! The frame of every command, told by `mayWrite`, and the FM exponential over a run (spec/43_fm_parameters.md R131). -/

namespace Sys2Proof.Machine

variable {s t u : State} {i : Instr} {v : VoiceIx} {r : VReg}

/-! ### The registers a command leaves (the `Written by` of R21 to R40) -/

/-- Replacing a bank leaves a register of another bank, and one that the new bank has as before. -/
theorem reg_setVoice_of_kept (s : State) {w : VoiceIx} {x : Voice} (h : v = w → x.readReg r = (s.voice w).readReg r) :
    (s.setVoice w x).reg v r = s.reg v r := by
  by_cases hv : v = w
  · subst hv
    rw [reg_setVoice_self, h rfl, State.reg]
  · exact reg_setVoice_of_ne s x r hv

/-- A command leaves every register it may not write. -/
theorem ExecNext.reg_eq_of_not_mayWrite (hx : ExecNext i s t) (h : mayWrite i v r = false) : t.reg v r = s.reg v r := by
  cases hx with
  | wr _ _ hr => exact reg_writeVreg_of_ne s _ (of_not_mayWrite_wr hr h)
  | kon _ w key =>
    refine reg_setVoice_of_kept s ?_
    rintro rfl
    exact readReg_claim_of_kept _ key (of_not_mayWrite_kon h)
  | koff _ key =>
    rw [reg_finish, reg_mapVoices, readReg_releaseKey_of_ne _ key (of_not_mayWrite_koff h), State.reg]
  | etick =>
    obtain ⟨hstage, henv, hage⟩ := of_not_mayWrite_etick h
    rw [reg_finish, reg_mapVoices, readReg_controlTick _ hage, readReg_envStep_of_ne _ hstage henv, State.reg]
  | fmdk => rw [reg_finish, reg_mapVoices, readReg_fmDecay_of_ne _ (of_not_mayWrite_fmdk h), State.reg]
  | refr _ w =>
    refine reg_setVoice_of_kept s ?_
    rintro rfl
    obtain ⟨hamp, hfmamp⟩ := of_not_mayWrite_refr h
    exact readReg_refresh_of_ne _ hamp hfmamp
  | syncRuns =>
    obtain ⟨hphase, hfmphase⟩ := of_not_mayWrite_sync h
    rw [reg_finish, reg_sampleUpdate, readReg_advance_of_ne _ hphase hfmphase]
    rfl
  | wrRefused | rdRefused | rdgRefused => exact reg_raiseCmdError ..
  | nop | rd | rdgStatus | rdgDuty | syncHeld => rfl

/-! ### The FM exponential (R130, R131) -/

/-- From `s` to `t` FMEXP of v did not rise, and did not fall to zero. -/
def FmexpDecays (v : VoiceIx) (s t : State) : Prop :=
  (t.reg v .fmexp).toNat ≤ (s.reg v .fmexp).toNat ∧ (1 ≤ (s.reg v .fmexp).toNat → 1 ≤ (t.reg v .fmexp).toNat)

theorem FmexpDecays.of_eq (h : t.reg v .fmexp = s.reg v .fmexp) : FmexpDecays v s t := by
  unfold FmexpDecays
  rw [h]
  exact ⟨le_rfl, id⟩

theorem FmexpDecays.trans (h : FmexpDecays v s t) (h' : FmexpDecays v t u) : FmexpDecays v s u :=
  ⟨h'.1.trans h.1, h'.2 ∘ h.2⟩

/-- FMDK takes less than the whole of a value that is not zero, since FMDEC is below 65536. -/
theorem fmDecay_fmexp_pos {x : Voice} (h : 1 ≤ x.fmexp.toNat) : 1 ≤ x.fmDecay.fmexp.toNat := by
  have hlt : x.fmexp.toNat * x.fmdec.toNat / 65536 < x.fmexp.toNat :=
    Nat.div_lt_of_lt_mul (by rw [Nat.mul_comm]; exact Nat.mul_lt_mul_of_pos_right x.fmdec.isLt h)
  rw [fmDecay_fmexp_toNat]
  omega

theorem fmexpDecays_fmdk (s : State) (v : VoiceIx) : FmexpDecays v s ((s.mapVoices Voice.fmDecay).finish .done) := by
  unfold FmexpDecays
  rw [reg_finish, reg_mapVoices]
  exact ⟨(fmDecay_fmexp_toNat (s.voice v)).trans_le (Nat.sub_le ..), fmDecay_fmexp_pos⟩

theorem ExecNext.fmexpDecays (hx : ExecNext i s t) (h : i = .fmdk ∨ mayWrite i v .fmexp = false) : FmexpDecays v s t := by
  obtain rfl | h := h
  · cases hx
    exact fmexpDecays_fmdk s v
  · exact .of_eq (hx.reg_eq_of_not_mayWrite h)

/-! ### Runs -/

/-- A command of a run ends it, being a SYNC that waits, or the run goes on behind it (R151). -/
theorem execLines_command_cases (ls : List ListingLine) (h : exec i s = .next t) :
    execLines (.command i :: ls) s = .next t ∨ execLines (.command i :: ls) s = execLines ls t := by
  cases hh : t.held with
  | true => left; simp [execLines, h, hh]
  | false => right; exact execLines_command ls h hh

/-- A run decays FMEXP of v where each of its commands does and no reset is among its lines. -/
theorem execLines_fmexpDecays (ls : List ListingLine) (s : State)
    (h : ∀ l ∈ ls, l = .boundary ∨ l = .command .fmdk ∨ ∃ i, l = .command i ∧ mayWrite i v .fmexp = false) :
    ∃ t, execLines ls s = .next t ∧ FmexpDecays v s t := by
  induction ls generalizing s with
  | nil => exact ⟨s, rfl, .of_eq rfl⟩
  | cons l ls ih =>
    obtain ⟨hl, hls⟩ := List.forall_mem_cons.mp h
    have command (i : Instr) (hi : i = .fmdk ∨ mayWrite i v .fmexp = false) :
        ∃ t, execLines (.command i :: ls) s = .next t ∧ FmexpDecays v s t := by
      obtain ⟨t, hx⟩ := ExecNext.exists_next i s
      obtain hend | hon := execLines_command_cases ls hx.exec_eq
      · exact ⟨t, hend, hx.fmexpDecays hi⟩
      · obtain ⟨u, hu, hd⟩ := ih t hls
        exact ⟨u, hon.trans hu, (hx.fmexpDecays hi).trans hd⟩
    obtain rfl | rfl | ⟨i, rfl, hi⟩ := hl
    · exact ih s.boundary hls
    · exact command .fmdk (.inl rfl)
    · exact command i (.inr hi)

/-- Settles O43, by induction on the lines of the run. -/
theorem fmExponentialNeverRisesNorDies : Obligations.FmExponentialNeverRisesNorDies :=
  fun ls s _ h => execLines_fmexpDecays ls s h

end Sys2Proof.Machine
end

section
/-! A SYNC presented without a boundary, step by step: it waits through the engine's turns and runs in the one behind the boundary
(spec/44_sample_stage.md R150, R151). -/

namespace Sys2Proof.Machine

variable {s u : State} {rest : List CmdWord} {ts : List Turn}

/-- Steps one after another: every step answers a next state, so a run goes on where its first part ended. -/
theorem runSteps_add {k : Nat} (m : Nat) (h : runSteps k s = .next u) : runSteps (k + m) s = runSteps m u := by
  induction k generalizing s with
  | zero =>
    obtain rfl : s = u := by simpa [runSteps_zero] using h
    rw [Nat.zero_add]
  | succ k ih =>
    obtain ⟨s', hs'⟩ := StepNext.exists_next s
    rw [runSteps_succ k hs'.step_eq] at h
    rw [Nat.succ_add, runSteps_succ _ hs'.step_eq, ih h]

theorem decode_encode_sync : decode (encode .sync) = .command .sync := by decide

/-- SYNC's step while no boundary is pending (R151). -/
theorem step_sync_waits (hc : s.cmds = encode .sync :: rest) (hdue : s.sdue = false) (h : s.engineNext) :
    step s = .next s.turnTaken.hold :=
  (StepNext.command h hc decode_encode_sync (ExecNext.syncHeld (s := s.turnTaken) hdue)).step_eq

/-- SYNC's step when a boundary is pending (R150). -/
theorem step_sync_runs (hc : s.cmds = encode .sync :: rest) (hdue : s.sdue = true) (h : s.engineNext) :
    step s = .next (({ s.turnTaken with sdue := false } : State).sampleUpdate.finish .done) :=
  (StepNext.command h hc decode_encode_sync (ExecNext.syncRuns (s := s.turnTaken) hdue)).step_eq

/-- The state after k steps in which a SYNC waited, with the turns that are left. -/
def State.waited (s : State) (k : Nat) (ts : List Turn) : State :=
  { s with schedule := ts, held := s.held || decide (1 ≤ k) }

/-- `waited` is what k engine turns make of a SYNC without a boundary. -/
theorem runSteps_sync_waits (k : Nat) (hc : s.cmds = encode .sync :: rest) (hdue : s.sdue = false)
    (hs : s.schedule = List.replicate k .engine ++ ts) : runSteps k s = .next (s.waited k ts) := by
  induction k generalizing s with
  | zero =>
    obtain rfl : s.schedule = ts := hs
    simp [runSteps_zero, State.waited]
  | succ k ih =>
    rw [List.replicate_succ, List.cons_append] at hs
    rw [runSteps_succ k (step_sync_waits hc hdue (.inr ⟨_, hs⟩)), ih (s := s.turnTaken.hold) hc hdue (by simp [hs])]
    simp [State.waited, State.turnTaken, State.hold]

/-- Settles O53: after n steps the state is `waited`, then the boundary's step and the step in which the SYNC runs follow. -/
theorem heldSyncRunsAfterABoundary : Obligations.HeldSyncRunsAfterABoundary := by
  intro n s rest ts hc hdue hs
  have waits := runSteps_sync_waits n hc hdue hs
  let u := s.waited n (.boundary :: .engine :: ts)
  have boundary : runSteps 1 u = .next u.turnTaken.boundary := runSteps_succ 0 (StepNext.boundary rfl).step_eq
  have runs := step_sync_runs (s := u.turnTaken.boundary) hc rfl (.inr ⟨ts, rfl⟩)
  refine ⟨fun k hk => ?waiting, ⟨_, (runSteps_add 1 waits).trans boundary, ?due⟩,
    ⟨_, (runSteps_add 2 waits).trans ((runSteps_add 1 boundary).trans (runSteps_succ 0 runs)), ?finished⟩⟩
  case waiting =>
    obtain ⟨m, rfl⟩ := Nat.exists_eq_add_of_le hk
    rw [List.replicate_add, List.append_assoc] at hs
    exact ⟨_, runSteps_sync_waits k hc hdue hs, rfl, rfl, rfl, hdue, rfl, rfl, rfl, fun h => by simp [State.waited, h]⟩
  case due => exact ⟨rfl, rfl, rfl, rfl, fun h => by simp [u, State.waited, h]⟩
  case finished =>
    refine ⟨by simp [u, State.waited, hc], rfl, rfl, rfl, rfl, fun v => ?_⟩
    rw [reg_finish, reg_finish, reg_sampleUpdate, reg_sampleUpdate]
    exact ⟨advance_phase (s.voice v), advance_fmphase (s.voice v)⟩

end Sys2Proof.Machine
end

section
/-! The range of DUTY in the default configuration, bounded from the sine table up (spec/44_sample_stage.md R163). -/

namespace Sys2Proof.Machine

/-- The printed table of R57 stays between -127 and 127 (R58). -/
theorem defaultSine_bounds : ∀ z ∈ defaultSine, -127 ≤ z ∧ z ≤ 127 := by
  simp only [defaultSine, List.forall_mem_append]
  exact ⟨⟨⟨by decide, by decide⟩, by decide⟩, by decide⟩

/-- A number between -127 and 127 is stored whole in eight bits (R11). -/
theorem sext_ofInt_of_bounds {z : Int} (h : -127 ≤ z ∧ z ≤ 127) : sext (BitVec.ofInt 8 z) = z := by
  rw [sext, BitVec.toInt_ofInt]
  exact Int.bmod_eq_of_le (by omega) (by omega)

theorem sineAt_default_bounds (i : U8) : -127 ≤ sineAt Config.default i ∧ sineAt Config.default i ≤ 127 := by
  have hi : i.toNat < Config.default.sine.length := i.isLt.trans_eq Config.default.sine_length.symm
  obtain ⟨z, hz, he⟩ := List.mem_map.mp (List.getElem_mem hi)
  have hbounds := defaultSine_bounds z hz
  rwa [sineAt, ← he, sext_ofInt_of_bounds hbounds]

/-- One voice's contribution (R157). -/
theorem contribution_default_bounds {x : Voice} (h : x.amp.toNat ≤ 254) :
    -32258 ≤ x.contribution Config.default ∧ x.contribution Config.default ≤ 32258 := by
  have hsine := sineAt_default_bounds (hiByte (x.modulatedPhase Config.default))
  rw [← abs_le] at hsine ⊢
  have hamp : |unsigned x.amp| ≤ 254 := by simp [unsigned]; omega
  calc |x.contribution Config.default| = |sineAt Config.default (hiByte (x.modulatedPhase Config.default))| * |unsigned x.amp| := abs_mul ..
    _ ≤ 127 * 254 := mul_le_mul hsine hamp (abs_nonneg _) (by norm_num)

/-- A sum that fits the accumulator is not wrapped (R11, R158). -/
theorem wraps_of_fits {n : Nat} {z : Int} (h0 : -2 ^ n ≤ z * 2) (h1 : z * 2 < 2 ^ n) : wraps n z = z :=
  Int.bmod_eq_of_le_mul_two (by push_cast; exact h0) (by push_cast; exact h1)

/-- The mix of four voices (R158). -/
theorem mix_default_bounds {b : Voices} (h : ∀ v, (b.get v).amp.toNat ≤ 254) :
    -129032 ≤ mix Config.default b ∧ mix Config.default b ≤ 129032 := by
  have h0 := contribution_default_bounds (h 0)
  have h1 := contribution_default_bounds (h 1)
  have h2 := contribution_default_bounds (h 2)
  have h3 := contribution_default_bounds (h 3)
  simp only [Voices.get] at h0 h1 h2 h3
  have haccW : Config.default.accW = 32 := rfl
  rw [mix, haccW, wraps_of_fits] <;> omega

/-- The quantised mix (R160). -/
theorem quantise_default_bounds {acc : Int} (h : -129032 ≤ acc ∧ acc ≤ 129032) :
    -752 ≤ quantise Config.default acc ∧ quantise Config.default acc ≤ 1264 := by
  have hlow : -1008 ≤ acc.tdiv 128 := Int.tdiv_le_tdiv (a := -129032) (by decide) h.1
  have hhigh : acc.tdiv 128 ≤ 1008 := Int.tdiv_le_tdiv (b := 129032) (by decide) h.2
  have hq : quantise Config.default acc = acc.tdiv 128 + 256 := rfl
  rw [hq]
  omega

/-- DUTY as a 16-bit number: a negative value wraps to the top of the range (R161, R162). -/
theorem wrapu_duty_range {out : Int} (h : -752 ≤ out ∧ out ≤ 1264) :
    (wrapu 16 out).toNat ≤ 1264 ∨ 0xFD10 ≤ (wrapu 16 out).toNat := by
  have := wrapu_toNat 16 out
  omega

/-- Settles O50, from the table's entries through the contributions, the mix and the quotient to DUTY. -/
theorem defaultDutyStaysInRange : Obligations.DefaultDutyStaysInRange := by
  intro s hcfg hdue hamp
  have advanced (v : VoiceIx) : ((s.voices.map Voice.advance).get v).amp.toNat ≤ 254 := by
    rw [Voices.get_map]
    exact (setWidth_byte_toNat (s.voice v).amp).symm.trans_le (hamp v)
  refine ⟨_, (ExecNext.syncRuns hdue).exec_eq, ?_⟩
  rw [finish_duty, sampleUpdate_duty, hcfg]
  exact wrapu_duty_range (quantise_default_bounds (mix_default_bounds advanced))

end Sys2Proof.Machine
end

section
/-! Register access: which WR is accepted and what it leaves, what RD delivers, the allocator's sixteen reads, and the order of a
command and a sample-boundary event (spec/20_memory.md R51 to R63, spec/40_register_access.md R91 to R93). -/

namespace Sys2Proof.Machine

variable {s t : State} {i : Instr} {r q : RegNum} {imm : U16}

/-! ### The checks of WR (R91) -/

theorem wrRefusal_of_reserved (h : 0x12 < r.toNat) : wrRefusal r imm = some .badReg := if_pos h

theorem wrRefusal_of_latch (h : r = 0x11 ∨ r = 0x12) : wrRefusal r imm = some .roWrite := by
  obtain rfl | rfl := h <;> rfl

theorem wrRefusal_of_stage (h : r = 0x08) (himm : 4 < imm.toNat) : wrRefusal r imm = some .badValue := by
  subst h
  simp [wrRefusal, himm]

theorem wrRefusal_of_byte (h : r = 0x0E ∨ r = 0x0F) (himm : 255 < imm.toNat) : wrRefusal r imm = some .badValue := by
  obtain rfl | rfl := h <;> simp [wrRefusal, himm]

theorem wrRefusal_of_legal (hr : r.toNat ≤ 0x10) (hstage : r = 0x08 → imm.toNat ≤ 4)
    (hbyte : r = 0x0E ∨ r = 0x0F → imm.toNat ≤ 255) : wrRefusal r imm = none := by
  have stage : ¬(r.toNat = 0x08 ∧ imm.toNat > 4) := by
    rintro ⟨h, himm⟩
    exact absurd (hstage (BitVec.eq_of_toNat_eq h)) himm.not_ge
  have byte : ¬((r.toNat = 0x0E ∨ r.toNat = 0x0F) ∧ imm.toNat > 255) := by
    rintro ⟨h, himm⟩
    exact absurd (hbyte (h.imp BitVec.eq_of_toNat_eq BitVec.eq_of_toNat_eq)) himm.not_ge
  rw [wrRefusal, if_neg (by omega), if_neg (by omega), if_neg stage, if_neg byte]

/-- Settles O24: in each case the check that fails names the code. -/
theorem wrRefusalsInOrder : Obligations.WrRefusalsInOrder := by
  intro s v r imm
  have refused {c : CmdError} (h : wrRefusal r imm = some c) :
      ∃ t, exec (.wr v r imm) s = .next t ∧ RefusedWith c s t :=
    ⟨_, (ExecNext.wrRefused s v h).exec_eq, refusedWith_raiseCmdError s c⟩
  exact ⟨fun h => refused (wrRefusal_of_reserved h), fun h => refused (wrRefusal_of_latch h),
    fun h himm => refused (wrRefusal_of_stage h himm), fun h himm => refused (wrRefusal_of_byte h himm)⟩

/-! ### Register numbers after a write (R54) -/

/-- No two numbers name one register (R51). -/
theorem vregOf_inj {reg : VReg} (hr : vregOf r = some reg) (hq : vregOf q = some reg) : r = q :=
  (number_of_vregOf hr).symm.trans (number_of_vregOf hq)

theorem readVreg_of_reg {reg : VReg} (s : State) (v : VoiceIx) (hr : vregOf r = some reg) :
    s.readVreg v r = some (s.reg v reg) := by
  rw [State.readVreg, hr, Option.map_some]

theorem readVreg_writeVreg_self {reg : VReg} (s : State) (v : VoiceIx) (hr : vregOf r = some reg)
    (hl : vregLegalImm reg imm = true) : (s.writeVreg v reg imm).readVreg v r = some imm := by
  rw [readVreg_of_reg _ v hr, reg_writeVreg_self s v hl]

theorem readVreg_writeVreg_of_ne {reg : VReg} (s : State) {v w : VoiceIx} (imm : U16) (hr : vregOf r = some reg)
    (h : (w, q) ≠ (v, r)) : (s.writeVreg v reg imm).readVreg w q = s.readVreg w q := by
  cases hq : vregOf q with
  | none => simp [State.readVreg, hq]
  | some other =>
    have hne : w ≠ v ∨ other ≠ reg := by
      by_contra hn
      push Not at hn
      obtain ⟨rfl, rfl⟩ := hn
      exact h (by rw [vregOf_inj hr hq])
    rw [readVreg_of_reg _ w hq, readVreg_of_reg s w hq, reg_writeVreg_of_ne s imm hne]

/-- Settles O23: the checks pass, so the number names a register that takes the value, and that register alone is written. -/
theorem wrWritesOneRegister : Obligations.WrWritesOneRegister := by
  intro s v r imm hr hstage hbyte
  obtain ⟨reg, hreg, hlegal⟩ := wrRefusal_eq_none.mp (wrRefusal_of_legal hr hstage hbyte)
  exact ⟨_, (ExecNext.wr s v hreg hlegal).exec_eq, finishedWith_writeVreg .., readVreg_writeVreg_self s v hreg hlegal,
    fun _ _ h => readVreg_writeVreg_of_ne s imm hreg h⟩

/-! ### The values RD delivers (R92, R93) -/

@[simp] theorem responses_finish_respond (s : State) (val : U16) :
    (s.finish (.respond val)).responses = s.responses ++ [val] := by
  simp [State.responses]

/-- Settles O25: the number names a register, or is reserved. -/
theorem rdRespondsOneRegister : Obligations.RdRespondsOneRegister := by
  intro s v
  refine ⟨fun r hr => ?responds, fun r hr => ?refused⟩
  case responds =>
    obtain ⟨reg, hreg⟩ := Option.ne_none_iff_exists'.mp (mt vregOf_eq_none.mp hr.not_gt)
    exact ⟨_, s.reg v reg, (ExecNext.rd s v hreg).exec_eq, readVreg_of_reg s v hreg, finishedWith_finish ..,
      finish_voices .., responses_finish_respond ..⟩
  case refused =>
    exact ⟨_, (ExecNext.rdRefused s v (vregOf_eq_none.mpr hr)).exec_eq, refusedWith_raiseCmdError ..,
      responses_raiseCmdError ..⟩

/-! ### The allocator's reads (R190) -/

/-- From `s` to `t` reads delivered the values `vals`, and no register of the block changed. -/
structure ReadsDelivered (vals : List U16) (s t : State) : Prop where
  voices    : t.voices = s.voices
  duty      : t.duty = s.duty
  sdue      : t.sdue = s.sdue
  err       : t.err = s.err
  errcode   : t.errcode = s.errcode
  responses : t.responses = s.responses ++ vals

/-- The read of a register by its name. -/
def readInstr (p : VoiceIx × VReg) : Instr := .rd p.1 (vregNumber p.2)

/-- Reads finish one after another, and each delivers the register as it was before the first. -/
theorem execSeq_readInstr (ps : List (VoiceIx × VReg)) (s : State) :
    ∃ t, execSeq (ps.map readInstr) s = .next t ∧ ReadsDelivered (ps.map fun p => s.reg p.1 p.2) s t := by
  induction ps generalizing s with
  | nil => exact ⟨s, rfl, rfl, rfl, rfl, rfl, rfl, by simp⟩
  | cons p ps ih =>
    have first : exec (readInstr p) s = .next (s.finish (.respond (s.reg p.1 p.2))) :=
      (ExecNext.rd s p.1 (vregOf_number p.2)).exec_eq
    obtain ⟨t, hrun, h⟩ := ih (s.finish (.respond (s.reg p.1 p.2)))
    refine ⟨t, (execSeq_cons _ first (finish_held ..)).trans hrun, h.voices, h.duty, h.sdue, h.err, h.errcode, ?_⟩
    simp [h.responses]

/-- The registers of a voice that the allocator reads, in its order. -/
def viewRegs (v : VoiceIx) : List (VoiceIx × VReg) := [(v, .key), (v, .stage), (v, .env), (v, .age)]

/-- The registers of the allocator's sixteen reads. -/
def allocatorRegs : List (VoiceIx × VReg) := viewRegs 0 ++ viewRegs 1 ++ viewRegs 2 ++ viewRegs 3

theorem allocatorReads_eq : allocatorReads = allocatorRegs.map readInstr := rfl

/-- The view is of the last sixteen values alone. -/
theorem viewOf_append (earlier : List U16) {vals : List U16} (h : vals.length = 16) (v : VoiceIx) :
    viewOf (earlier ++ vals) v = viewOf vals v := by
  simp [viewOf, h]

theorem viewOf_allocatorRegs (s : State) (v : VoiceIx) :
    viewOf (allocatorRegs.map fun p => s.reg p.1 p.2) v = s.view v := by
  fin_cases v <;> rfl

/-- Settles O56, by the run of the sixteen reads. -/
theorem allocatorReadsShowTheVoices : Obligations.AllocatorReadsShowTheVoices := by
  intro s
  rw [allocatorReads_eq]
  obtain ⟨t, hrun, h⟩ := execSeq_readInstr allocatorRegs s
  refine ⟨t, hrun, h.voices, h.duty, h.sdue, h.err, h.errcode, fun v => ?_⟩
  rw [h.responses, viewOf_append _ (by simp [allocatorRegs, viewRegs]), viewOf_allocatorRegs]

/-! ### A boundary event before or after a command (R219) -/

/-- The error record does not depend on SDUE (R211). -/
theorem raiseCmdError_boundary (s : State) (c : CmdError) : s.boundary.raiseCmdError c = (s.raiseCmdError c).boundary := by
  unfold State.raiseCmdError State.recordError
  rw [boundary_err]
  split <;> rfl

/-- Every command but SYNC and RDG STATUS leaves SDUE unread, so its case after the event is its case before it. -/
theorem ExecNext.boundary (h : ExecNext i s t) (hsync : i ≠ .sync) (hstatus : i ≠ .rdg 0) :
    ExecNext i s.boundary t.boundary := by
  cases h with
  | syncRuns | syncHeld => exact absurd rfl hsync
  | rdgStatus => exact absurd rfl hstatus
  | wrRefused _ v h => rw [← raiseCmdError_boundary]; exact .wrRefused _ v h
  | rdRefused _ v h => rw [← raiseCmdError_boundary]; exact .rdRefused _ v h
  | rdgRefused _ h => rw [← raiseCmdError_boundary]; exact .rdgRefused _ h
  | nop => exact .nop s.boundary
  | wr _ v hr hl => exact .wr s.boundary v hr hl
  | rd _ v hr => exact .rd s.boundary v hr
  | rdgDuty => exact .rdgDuty s.boundary
  | kon _ v key => exact .kon s.boundary v key
  | koff _ key => exact .koff s.boundary key
  | etick => exact .etick s.boundary
  | fmdk => exact .fmdk s.boundary
  | refr _ v => exact .refr s.boundary v

/-- Settles O21, by the cases of the command's execution. -/
theorem boundaryCommutesWithCommands : Obligations.BoundaryCommutesWithCommands := by
  intro i s hsync hstatus
  obtain ⟨t, ht⟩ := ExecNext.exists_next i s
  exact ⟨t, ht.exec_eq, (ht.boundary hsync hstatus).exec_eq⟩

end Sys2Proof.Machine
end

section
/-! The encoding (spec/30_encoding.md): decoding told by the fields of the word, from which both directions of the round trip follow,
the worked words of R79, and the refusal of an illegal word. A word is its fields and a command is its fields, so neither direction
looks at a bit pattern. -/

namespace Sys2Proof

variable {i j : Instr} {f : Fields} {w : CmdWord}

/-! ### A command and its fields (R71 to R74) -/

theorem encode_layout (i : Instr) : Laws.EncodeLayout.Statement i := by
  cases i with
  | nop => exact Laws.EncodeLayout.nop
  | wr v r imm => exact Laws.EncodeLayout.wr v r imm
  | rd v r => exact Laws.EncodeLayout.rd v r
  | rdg g => exact Laws.EncodeLayout.rdg g
  | kon v key => exact Laws.EncodeLayout.kon v key
  | koff key => exact Laws.EncodeLayout.koff key
  | etick => exact Laws.EncodeLayout.etick
  | fmdk => exact Laws.EncodeLayout.fmdk
  | refr v => exact Laws.EncodeLayout.refr v
  | sync => exact Laws.EncodeLayout.sync

@[simp] theorem ofWord_encode (i : Instr) : Fields.ofWord (encode i) = i.fields := (encode_layout i).1

@[simp] theorem wellFormed_fields (i : Instr) : i.fields.wellFormed = true := (encode_layout i).2

/-- The low byte of a key's data field is the key (R72). -/
theorem lowByte_setWidth (key : U8) : (key.setWidth 16).extractLsb' 0 8 = key := by
  rw [← BitVec.setWidth_eq_extractLsb' (by decide), BitVec.setWidth_setWidth_of_le key (by decide), BitVec.setWidth_eq]

/-- The fields of a command select it. -/
theorem commandOf_fields (i : Instr) : commandOf i.fields.op i.fields.v.toFin i.fields.r i.fields.imm = some i := by
  cases i with
  | kon v key => exact congrArg (fun k => some (Instr.kon v k)) (lowByte_setWidth key)
  | koff key => exact congrArg (fun k => some (Instr.koff k)) (lowByte_setWidth key)
  | _ => rfl

theorem Instr.fields_injective (h : i.fields = j.fields) : i = j :=
  Option.some.inj (by rw [← commandOf_fields i, h, commandOf_fields j])

/-! ### The must-be-zero checks (R74) -/

theorem wellFormed_iff :
    f.wellFormed = true ↔
      f.op.toNat ≤ 9 ∧ f.z = 0 ∧ f.vAllowed = true ∧ f.rAllowed = true ∧ f.immAllowed = true := by
  simp [Fields.wellFormed, Fields.opDefined, Fields.zIsZero, and_assoc]

/-- What KON and KOFF allow in the data field is a key below a zero byte (R72). -/
theorem keyAllowed_iff {imm : U16} :
    (imm.extractLsb' 8 8 = 0#8 ∨ imm = 0#16) ↔ (imm.extractLsb' 0 8).setWidth 16 = imm := by
  constructor
  · rintro (h | rfl)
    · exact setWidth_lowByte h
    · rfl
  · intro h
    left
    rw [← h]
    ext k hk
    simp

/-- A command selected by well-formed fields has those fields: what it does not take from them is zero. -/
theorem fields_of_commandOf (hf : f.wellFormed = true) (h : commandOf f.op f.v.toFin f.r f.imm = some i) : i.fields = f := by
  obtain ⟨op, v, z, r, imm⟩ := f
  obtain ⟨hop, hz, hv, hr, himm⟩ := wellFormed_iff.mp hf
  simp only [Fields.vAllowed, Fields.rAllowed, Fields.immAllowed] at hop hz hv hr himm h
  subst hz
  obtain rfl | rfl | rfl | rfl | rfl | rfl | rfl | rfl | rfl | rfl | reserved := op_cases op
  case inr.inr.inr.inr.inr.inr.inr.inr.inr.inr => omega
  all_goals
    cases h
    simp [keyAllowed_iff] at hv hr himm
    simp [Instr.fields, hv, hr, himm]

/-! ### Decoding, clause by clause (R75) -/

theorem decode_of_reserved_op (h : 9 < (Fields.ofWord w).op.toNat) : decode w = .illegal .illegalOp := by
  rw [← Fields.word_ofWord w, decode_word, commandOf_reserved h]

theorem decode_of_reserved_field (hop : (Fields.ofWord w).op.toNat ≤ 9) (h : (Fields.ofWord w).wellFormed = false) :
    decode w = .illegal .reservedField := by
  obtain ⟨i, hi⟩ := commandOf_isSome hop (Fields.ofWord w).v.toFin (Fields.ofWord w).r (Fields.ofWord w).imm
  rw [← Fields.word_ofWord w, decode_word, hi]
  exact if_neg (by simp [h])

theorem decode_of_wellFormed (h : (Fields.ofWord w).wellFormed = true) :
    ∃ i, decode w = .command i ∧ i.fields = Fields.ofWord w := by
  obtain ⟨i, hi⟩ := commandOf_isSome (wellFormed_iff.mp h).1 (Fields.ofWord w).v.toFin (Fields.ofWord w).r (Fields.ofWord w).imm
  refine ⟨i, ?_, fields_of_commandOf h hi⟩
  rw [← Fields.word_ofWord w, decode_word, hi]
  exact if_pos h

theorem wellFormed_of_decode (h : decode w = .command i) : (Fields.ofWord w).wellFormed = true := by
  by_contra hwf
  by_cases hop : (Fields.ofWord w).op.toNat ≤ 9
  · cases (decode_of_reserved_field hop (by simpa using hwf)).symm.trans h
  · cases (decode_of_reserved_op (not_le.mp hop)).symm.trans h

/-- The decoder's specification: a word decodes to the command that has its fields, and to no other. -/
theorem decode_eq_command_iff : decode w = .command i ↔ i.fields = Fields.ofWord w := by
  constructor
  · intro h
    obtain ⟨j, hj, hfields⟩ := decode_of_wellFormed (wellFormed_of_decode h)
    cases hj.symm.trans h
    exact hfields
  · intro h
    obtain ⟨j, hj, hfields⟩ := decode_of_wellFormed (h ▸ wellFormed_fields i)
    rw [hj, Instr.fields_injective (hfields.trans h.symm)]

/-- Settles O11: the three clauses in the order of R75. -/
theorem decodeRefusesByOpcodeThenByFields : Obligations.DecodeRefusesByOpcodeThenByFields :=
  fun _ => ⟨decode_of_reserved_op, decode_of_reserved_field, decode_of_wellFormed⟩

/-! ### The round trip -/

/-- Settles O9: the command's word has the command's fields. -/
theorem decodeOfEncodeIsTheCommand : Obligations.DecodeOfEncodeIsTheCommand :=
  fun i => decode_eq_command_iff.mpr (ofWord_encode i).symm

/-- Settles O10: both words have the command's fields, and the fields cover the word. -/
theorem encodeOfDecodeIsTheWord : Obligations.EncodeOfDecodeIsTheWord :=
  fun _ i h => Fields.ofWord_injective ((ofWord_encode i).trans (decode_eq_command_iff.mp h))

/-- Settles O12: each word is computed as the command's, and the round trip decodes it. -/
theorem workedEncodingsDecode : Obligations.WorkedEncodingsDecode := by
  have decodes {i : Instr} {w : CmdWord} (h : encode i = w) : decode w = .command i :=
    h ▸ decodeOfEncodeIsTheCommand i
  exact ⟨rfl, decodes rfl, rfl, decodes rfl, rfl, decodes rfl, rfl, decodes rfl, rfl, decodes rfl, rfl, decodes rfl,
    rfl, decodes rfl, rfl, decodes rfl, rfl⟩

end Sys2Proof

namespace Sys2Proof.Machine

/-! ### An illegal word (R75, R211, R220) -/

/-- Settles O14: the engine's step on an illegal word is `raise CmdError` on the state without the turn taken. -/
theorem illegalWordsAreRefusedWithoutEffect : Obligations.IllegalWordsAreRefusedWithoutEffect := by
  intro s w rest c hc hd
  have refused (h : s.engineNext) : ∃ t, step s = .next t ∧ RefusedWith c s.turnTaken t :=
    ⟨_, (StepNext.illegal h hc hd).step_eq, refusedWith_raiseCmdError s.turnTaken c⟩
  constructor
  · intro h
    simpa only [turnTaken_of_schedule_nil h] using refused (.inl h)
  · intro ts h
    simpa only [turnTaken_of_schedule_cons h] using refused (.inr ⟨ts, h⟩)

end Sys2Proof.Machine
end

section
/-! The pseudo-commands (spec/30_encoding.md R78): what NOTEON leaves, from what a list of accepted writes leaves; and CTICK, the
commands the reference host sends in a control tick without a key event (spec/47_host_reference.md R201, R204). -/

namespace Sys2Proof.Machine

variable {s t : State} {v : VoiceIx}

/-! ### A list of writes to one voice (R54, R91) -/

/-- The write of a register by its name. -/
def writeInstr (v : VoiceIx) (p : VReg × U16) : Instr := .wr v (vregNumber p.1) p.2

/-- From `s` to `t` the registers of voice `v` that `ps` names took the values it gives them, and no other register changed. -/
structure WritesDone (v : VoiceIx) (ps : List (VReg × U16)) (s t : State) : Prop where
  written : ∀ p ∈ ps, t.reg v p.1 = p.2
  kept    : ∀ r, r ∉ ps.map Prod.fst → t.reg v r = s.reg v r
  others  : ∀ w r, w ≠ v → t.reg w r = s.reg w r
  duty    : t.duty = s.duty
  sdue    : t.sdue = s.sdue
  err     : t.err = s.err
  errcode : t.errcode = s.errcode

/-- One more write before the others, of a register they leave. -/
theorem WritesDone.cons {p : VReg × U16} {ps : List (VReg × U16)} (hp : p.1 ∉ ps.map Prod.fst)
    (hlegal : vregLegalImm p.1 p.2 = true) (h : WritesDone v ps ((s.writeVreg v p.1 p.2).finish .done) t) :
    WritesDone v (p :: ps) s t where
  written := by
    refine List.forall_mem_cons.mpr ⟨?_, h.written⟩
    rw [h.kept _ hp, reg_finish, reg_writeVreg_self s v hlegal]
  kept r hr := by
    obtain ⟨hne, hrest⟩ := not_or.mp (List.mem_cons.not.mp hr)
    rw [h.kept r hrest, reg_finish, reg_writeVreg_of_ne s p.2 (.inr hne)]
  others w r hw := by rw [h.others w r hw, reg_finish, reg_writeVreg_of_ne s p.2 (.inl hw)]
  duty := h.duty
  sdue := h.sdue
  err := h.err
  errcode := h.errcode

/-- Accepted writes of different registers finish one after another, whatever commands follow. -/
theorem execSeq_writeInstr (v : VoiceIx) (rest : List Instr) (ps : List (VReg × U16))
    (hlegal : ∀ p ∈ ps, vregLegalImm p.1 p.2 = true) (hdistinct : (ps.map Prod.fst).Nodup) (s : State) :
    ∃ t, execSeq (ps.map (writeInstr v) ++ rest) s = execSeq rest t ∧ WritesDone v ps s t := by
  induction ps generalizing s with
  | nil => exact ⟨s, rfl, by simp, fun _ _ => rfl, fun _ _ _ => rfl, rfl, rfl, rfl, rfl⟩
  | cons p ps ih =>
    obtain ⟨hp, hlegal⟩ := List.forall_mem_cons.mp hlegal
    obtain ⟨hnew, hdistinct⟩ := List.nodup_cons.mp hdistinct
    have first : exec (writeInstr v p) s = .next ((s.writeVreg v p.1 p.2).finish .done) :=
      (ExecNext.wr s v (vregOf_number p.1) hp).exec_eq
    obtain ⟨t, hrun, h⟩ := ih hlegal hdistinct ((s.writeVreg v p.1 p.2).finish .done)
    exact ⟨t, (execSeq_cons _ first (finish_held ..)).trans hrun, h.cons hnew hp⟩

/-! ### NOTEON (R78, R100, R101) -/

/-- The registers LOADV writes, with their values. -/
def VoiceParams.writes (p : VoiceParams) : List (VReg × U16) :=
  [(.inc, p.inc), (.fminc, p.fminc), (.fma0, p.fma0), (.fmda, p.fmda), (.fmdec, p.fmdec), (.atk, p.atk), (.dcy, p.dcy),
    (.sus, p.sus), (.rls, p.rls), (.ampbase, p.ampbase)]

/-- The registers LOADV writes. -/
def loadedRegs : List VReg := [.inc, .fminc, .fma0, .fmda, .fmdec, .atk, .dcy, .sus, .rls, .ampbase]

/-- The registers KON writes (R100). -/
def claimedRegs : List VReg := [.phase, .fmphase, .stage, .env, .fmexp, .age, .key]

theorem loadVoice_eq (v : VoiceIx) (p : VoiceParams) : loadVoice v p = p.writes.map (writeInstr v) := rfl

theorem regs_writes (p : VoiceParams) : p.writes.map Prod.fst = loadedRegs := rfl

theorem not_mem_claimedRegs : ∀ r ∈ loadedRegs, r ∉ claimedRegs := by decide

/-- AMPBASE is the only one of them that does not take every value (R51). -/
theorem vregLegalImm_writes {p : VoiceParams} (h : p.ampbase.toNat ≤ 255) : ∀ q ∈ p.writes, vregLegalImm q.1 q.2 = true := by
  simp [VoiceParams.writes, vregLegalImm, h]

/-- KON leaves the registers of its voice that it does not write (R101). -/
theorem reg_claim_of_kept (s : State) (v : VoiceIx) (key : U8) {r : VReg} (h : r ∉ claimedRegs) :
    (s.setVoice v ((s.voice v).claim key)).reg v r = s.reg v r := by
  rw [reg_setVoice_self, readReg_claim_of_kept _ key h]
  rfl

/-- NOTEON is the writes of LOADV, all accepted, and KON. -/
theorem execSeq_noteOn (s : State) (v : VoiceIx) (key : U8) {p : VoiceParams} (h : p.ampbase.toNat ≤ 255) :
    ∃ t, execSeq (noteOn v key p) s = .next ((t.setVoice v ((t.voice v).claim key)).finish .done) ∧
      WritesDone v p.writes s t := by
  have distinct : (p.writes.map Prod.fst).Nodup := by rw [regs_writes]; decide
  obtain ⟨t, hrun, ht⟩ := execSeq_writeInstr v [.kon v key] p.writes (vregLegalImm_writes h) distinct s
  refine ⟨t, ?_, ht⟩
  rw [noteOn, loadVoice_eq, hrun]
  exact execSeq_cons [] (ExecNext.kon t v key).exec_eq (finish_held ..)

/-- Settles O54: KON leaves what LOADV wrote, and neither writes a latch or another voice. -/
theorem noteOnSetsUpOneVoice : Obligations.NoteOnSetsUpOneVoice := by
  intro s v key p hamp
  obtain ⟨t, hrun, ht⟩ := execSeq_noteOn s v key hamp
  have claimed (r : VReg) : (t.setVoice v ((t.voice v).claim key)).reg v r = ((t.voice v).claim key).readReg r :=
    reg_setVoice_self ..
  have latch (r : VReg) (hl : r ∉ loadedRegs) (hc : r ∉ claimedRegs) :
      (t.setVoice v ((t.voice v).claim key)).reg v r = s.reg v r := (reg_claim_of_kept t v key hc).trans (ht.kept r hl)
  have others (w : VoiceIx) (r : VReg) (hw : w ≠ v) : (t.setVoice v ((t.voice v).claim key)).reg w r = s.reg w r :=
    (reg_setVoice_of_ne t _ r hw).trans (ht.others w r hw)
  have loaded : ∀ q ∈ p.writes, (t.setVoice v ((t.voice v).claim key)).reg v q.1 = q.2 := fun q hq =>
    (reg_claim_of_kept t v key (not_mem_claimedRegs _ (List.mem_map_of_mem hq))).trans (ht.written q hq)
  simp only [VoiceParams.writes, List.forall_mem_cons] at loaded
  obtain ⟨hinc, hfminc, hfma0, hfmda, hfmdec, hatk, hdcy, hsus, hrls, hampbase, -⟩ := loaded
  exact ⟨_, hrun, hinc, hfminc, hfma0, hfmda, hfmdec, hatk, hdcy, hsus, hrls, hampbase,
    claimed .phase, claimed .fmphase, claimed .stage, claimed .env, claimed .fmexp, claimed .age, claimed .key,
    latch .amp (by decide) (by decide), latch .fmamp (by decide) (by decide), others, ht.duty, ht.sdue, ht.err,
    ht.errcode⟩

/-! ### A control tick without a key event (R201, R204) -/

/-- What the host's step k sends where neither event is set (R201). -/
def quietCommands : Fin 10 → List Instr
  | 4 => [.fmdk]
  | 5 => [.etick]
  | 6 => [.refr 0]
  | 7 => [.refr 1]
  | 8 => [.refr 2]
  | 9 => [.refr 3]
  | _ => []

/-- What n such steps send from step k on, each with its SYNC (R201). -/
def quietSteps : Nat → Fin 10 → List Instr
  | 0, _     => []
  | n + 1, k => quietCommands k ++ .sync :: quietSteps n (k + 1)

/-- The ten steps of a control tick send CTICK (R204). -/
theorem quietSteps_ten : quietSteps 10 0 = ctick := rfl

variable {tables : HostTables} {h g : RefHost} {k : Fin 10}

/-- The mailbox gives no key event: it holds no new snapshot, or one in which no bound key line changed (R181, R184). -/
def KeyState.quiet (tables : HostTables) (keys : KeyState) : Prop :=
  keys.updated = true → translateKeys tables keys.current (keys.current ^^^ keys.previous) = (.none, .none)

/-- The host is before step k of a control tick without a key event: the mailbox gives none, and behind step 1 none is set. -/
structure QuietAt (tables : HostTables) (k : Fin 10) (h : RefHost) : Prop where
  phase    : h.phase = .act k
  mailbox  : h.keys.quiet tables
  noEvents : k ≠ 0 → h.pressed = .none ∧ h.released = .none

/-- Step 1 finds no event in such a mailbox (R181, R184). -/
theorem readKeys_noEvents (hq : h.keys.quiet tables) :
    (h.readKeys tables).pressed = .none ∧ (h.readKeys tables).released = .none := by
  unfold RefHost.readKeys
  cases hu : h.keys.updated with
  | false => simp [translateKeys_of_unchanged]
  | true => simp [hq hu]

/-- Without an event, steps 2 to 10 send their fixed commands and leave the host as it is but for its place (R186, R187, R201). -/
theorem act_of_noEvents (hk : k ≠ 0) (hn : h.pressed = .none ∧ h.released = .none) :
    h.act tables k = (quietCommands k, { h with phase := .sync k }) := by
  obtain ⟨keys, instrument, pressed, released, phase⟩ := h
  obtain ⟨rfl, rfl⟩ := hn
  fin_cases k
  · exact absurd rfl hk
  all_goals rfl

/-- A step of such a control tick sends its fixed commands and leads to the next (R201). -/
theorem QuietAt.act (hq : QuietAt tables k h) :
    ∃ g : RefHost, h.act tables k = (quietCommands k, { g with phase := .sync k }) ∧
      QuietAt tables (k + 1) { g with phase := .act (k + 1) } := by
  by_cases hk : k = 0
  · subst hk
    exact ⟨h.readKeys tables, rfl, rfl, nofun, fun _ => readKeys_noEvents hq.mailbox⟩
  · exact ⟨h, act_of_noEvents hk (hq.noEvents hk), rfl, hq.mailbox, fun _ => hq.noEvents hk⟩

/-- A step and its SYNC are two turns. -/
theorem hostTurns_step {cs : List Instr} (n : Nat) (responses : List U16) (hphase : h.phase = .act k)
    (hact : h.act tables k = (cs, { g with phase := .sync k })) :
    hostTurns (n + 2) tables responses h =
      (cs ++ .sync :: (hostTurns n tables responses { g with phase := .act (k + 1) }).1,
        (hostTurns n tables responses { g with phase := .act (k + 1) }).2) := by
  have first : h.turn tables responses = (cs, { g with phase := .sync k }) := by
    rw [RefHost.turn, hphase]
    exact hact
  rw [hostTurns, first]
  rfl

/-- As many steps as one likes, over control ticks without a key event. -/
theorem QuietAt.hostTurns (responses : List U16) (n : Nat) (hq : QuietAt tables k h) :
    ∃ g, hostTurns (2 * n) tables responses h = (quietSteps n k, g) ∧ QuietAt tables ((· + 1)^[n] k) g := by
  induction n generalizing k h with
  | zero => exact ⟨h, rfl, hq⟩
  | succ n ih =>
    obtain ⟨g, hact, hg⟩ := hq.act
    obtain ⟨g', hrest, hg'⟩ := ih hg
    refine ⟨g', ?_, hg'⟩
    rw [Nat.mul_succ, hostTurns_step _ responses hq.phase hact, hrest, quietSteps]

/-- Settles O60: ten quiet steps from step 1 send CTICK and come back to step 1. -/
theorem quietControlTickIsCtick : Obligations.QuietControlTickIsCtick := by
  intro tables responses h hphase hmailbox
  have start : QuietAt tables 0 h := ⟨hphase, hmailbox, absurd rfl⟩
  obtain ⟨g, hrun, hg⟩ := start.hostTurns responses 10
  rw [hrun]
  exact ⟨quietSteps_ten, hg.phase⟩

end Sys2Proof.Machine
end

section
/-! A run of accepted commands (spec/40_register_access.md R91, R92, R94): none of them raises an error, so the error record stays
(spec/60_exceptions.md R211). -/

namespace Sys2Proof.Machine

variable {s t : State} {i : Instr}

/-! ### Which commands are accepted -/

/-- A WR is accepted where the checks of R91 pass. -/
theorem accepted_wr {v : VoiceIx} {r : RegNum} {imm : U16} : accepted (.wr v r imm) = true ↔ wrRefusal r imm = none := by
  rw [wrRefusal_eq_none]
  exact Option.any_eq_true ..

theorem accepted_rd {v : VoiceIx} {r : RegNum} : accepted (.rd v r) = true ↔ vregOf r ≠ none :=
  Option.isSome_iff_ne_none

theorem accepted_rdg {g : RegNum} : accepted (.rdg g) = true ↔ gregOf g ≠ none :=
  Option.isSome_iff_ne_none

/-! ### The error record -/

/-- The refused cases are not those of an accepted command, and no other case writes the error record. -/
theorem ExecNext.errorRecord_eq_of_accepted (hx : ExecNext i s t) (h : accepted i = true) :
    t.err = s.err ∧ t.errcode = s.errcode := by
  cases hx with
  | wrRefused _ _ hc => simp [accepted_wr.mp h] at hc
  | rdRefused _ _ hr => exact absurd hr (accepted_rd.mp h)
  | rdgRefused _ hg => exact absurd hg (accepted_rdg.mp h)
  | _ => exact ⟨rfl, rfl⟩

/-- Settles O8, by induction on the lines of the run. -/
theorem acceptedCommandsLeaveTheErrorRecord : Obligations.AcceptedCommandsLeaveTheErrorRecord := by
  intro ls
  induction ls with
  | nil => exact fun s _ => ⟨s, rfl, rfl, rfl⟩
  | cons l ls ih =>
    intro s h
    obtain ⟨hl, hls⟩ := List.forall_mem_cons.mp h
    obtain rfl | ⟨i, rfl, hi⟩ := hl
    · exact ih s.boundary hls
    · obtain ⟨t, hx⟩ := ExecNext.exists_next i s
      obtain ⟨herr, hcode⟩ := hx.errorRecord_eq_of_accepted hi
      obtain hend | hon := execLines_command_cases ls hx.exec_eq
      · exact ⟨t, hend, herr, hcode⟩
      · obtain ⟨u, hu, herr', hcode'⟩ := ih t hls
        exact ⟨u, hon.trans hu, herr'.trans herr, hcode'.trans hcode⟩

end Sys2Proof.Machine
end

section
/-! The voice control commands (spec/41_voice_control.md): KON claims one voice for a key (R100, R101), KOFF releases every voice
that holds the key (R102, R103). -/

namespace Sys2Proof.Machine

/-- Settles O29: KON finishes with `claim` done on one bank. -/
theorem konClaimsOneVoice : Obligations.KonClaimsOneVoice := by
  intro s v key
  have claimed (r : VReg) : (s.setVoice v ((s.voice v).claim key)).reg v r = ((s.voice v).claim key).readReg r :=
    reg_setVoice_self ..
  have notClaimed : ∀ r ∈ [VReg.inc, .fminc, .fma0, .fmda, .fmdec, .atk, .dcy, .sus, .rls, .ampbase, .amp, .fmamp],
      r ∉ claimedRegs := by decide
  exact ⟨_, (ExecNext.kon s v key).exec_eq, finishedWith_setVoice .., claimed .phase, claimed .fmphase, claimed .stage,
    claimed .env, claimed .fmexp, claimed .age, claimed .key, fun r hr => reg_claim_of_kept s v key (notClaimed r hr),
    fun _ r hw => reg_setVoice_of_ne s _ r hw⟩

/-- KOFF leaves a voice that holds the key in Release, whatever its stage (R102, R103). -/
theorem readReg_stage_releaseKey {x : Voice} {key : U8} (h : x.key = key) : (x.releaseKey key).readReg .stage = 4 := by
  rw [releaseKey_of_eq h]
  rfl

/-- Settles O30: KOFF finishes with `releaseKey` done on every bank. -/
theorem koffReleasesEveryHolder : Obligations.KoffReleasesEveryHolder := by
  intro s key
  refine ⟨_, (ExecNext.koff s key).exec_eq, finishedWith_mapVoices .., fun v => ?_⟩
  simp only [reg_finish, reg_mapVoices]
  constructor
  · intro hkey
    exact ⟨readReg_stage_releaseKey (readReg_key_eq.mp hkey), fun _ hr => readReg_releaseKey_of_ne _ key hr⟩
  · intro hkey r
    rw [releaseKey_of_ne (mt readReg_key_eq.mpr hkey)]
    rfl

end Sys2Proof.Machine
end

section
/-! ETICK on one voice (spec/42_envelope.md R110 to R119): what it does in each stage, that it touches STAGE, ENV and AGE alone, and that
no other command but KON, KOFF and a WR to STAGE changes a stage. -/

namespace Sys2Proof.Machine

variable {s t : State} {i : Instr} {v : VoiceIx} {x : Voice}

/-! ### The branches of `env_step` (R113, R114, R116) -/

/-- The bank with another level and the same stage. -/
def Voice.atLevel (x : Voice) (e : Nat) : Voice := { x with env := BitVec.ofNat 16 e }

theorem atLevel_env (x : Voice) : x.atLevel x.env.toNat = x := by simp [Voice.atLevel]

theorem atLevel_env_toNat (x : Voice) {e : Nat} (h : e ≤ 65535) : (x.atLevel e).env.toNat = e :=
  Nat.mod_eq_of_lt (Nat.lt_succ_of_le h)

theorem atLevel_sub_env_toNat (x : Voice) (d : Nat) : (x.atLevel (x.env.toNat - d)).env.toNat = x.env.toNat - d :=
  atLevel_env_toNat x ((Nat.sub_le ..).trans (Nat.le_of_lt_succ x.env.isLt))

theorem envStep_of_attack_ends (hs : x.stage = .attack) (h : 65535 - x.env.toNat ≤ x.atk.toNat) :
    x.envStep = { x with env := 0xFFFF, stage := .decay } := (envStep_of_attack hs).trans (if_pos h)

theorem envStep_of_attack_rises (hs : x.stage = .attack) (h : x.atk.toNat < 65535 - x.env.toNat) :
    x.envStep = x.atLevel (x.env.toNat + x.atk.toNat) := (envStep_of_attack hs).trans (if_neg (Nat.not_le.mpr h))

theorem envStep_of_decay_ends (hs : x.stage = .decay) (h : x.env.toNat ≤ x.sus.toNat + x.dcy.toNat) :
    x.envStep = { x with env := x.sus, stage := .sustain } := (envStep_of_decay hs).trans (if_pos h)

theorem envStep_of_decay_falls (hs : x.stage = .decay) (h : x.sus.toNat + x.dcy.toNat < x.env.toNat) :
    x.envStep = x.atLevel (x.env.toNat - x.dcy.toNat) := (envStep_of_decay hs).trans (if_neg (Nat.not_le.mpr h))

theorem envStep_of_release_ends (hs : x.stage = .release) (h : x.env.toNat ≤ x.rls.toNat) :
    x.envStep = { x with env := 0, stage := .idle } := (envStep_of_release hs).trans (if_pos h)

theorem envStep_of_release_falls (hs : x.stage = .release) (h : x.rls.toNat < x.env.toNat) :
    x.envStep = x.atLevel (x.env.toNat - x.rls.toNat) := (envStep_of_release hs).trans (if_neg (Nat.not_le.mpr h))

/-! ### ETICK by stage -/

/-- The stage after an ETICK is the one `env_step` gives. -/
theorem reg_stage_etick (s : State) (v : VoiceIx) :
    ((s.mapVoices Voice.controlTick).finish .done).reg v .stage = (s.voice v).envStep.readReg .stage := by
  rw [reg_finish, reg_mapVoices, readReg_controlTick _ (by decide)]

/-- Settles O31: `env_step` is the identity in these two stages. -/
theorem etickLeavesIdleAndSustain : Obligations.EtickLeavesIdleAndSustain := by
  intro s v hs
  have hstep : (s.voice v).envStep = s.voice v := by
    obtain hs | hs := hs
    · exact envStep_of_idle (reg_stage_eq.mp hs)
    · exact envStep_of_sustain (reg_stage_eq.mp hs)
  refine ⟨_, (ExecNext.etick s).exec_eq, finishedWith_mapVoices .., ?_⟩
  rw [reg_stage_etick, reg_env_etick, hstep]
  exact ⟨rfl, rfl⟩

/-- Settles O32, by the two branches of R113. -/
theorem etickInAttack : Obligations.EtickInAttack := by
  intro s v hs
  refine ⟨_, (ExecNext.etick s).exec_eq, finishedWith_mapVoices .., ?_⟩
  rw [reg_stage_etick, reg_env_etick]
  replace hs : (s.voice v).stage = .attack := reg_stage_eq.mp hs
  have rises (h : (s.reg v .atk).toNat < 65535 - (s.reg v .env).toNat) :
      (s.voice v).envStep.env.toNat = (s.reg v .env).toNat + (s.reg v .atk).toNat := by
    rw [envStep_of_attack_rises hs h]
    exact atLevel_env_toNat _ (Nat.add_le_of_le_sub' (by omega) h.le)
  refine ⟨fun hend => ?ends, fun hon => ?rises, fun hpos hstay => ?strict⟩
  case ends => rw [envStep_of_attack_ends hs hend]; exact ⟨rfl, rfl⟩
  case rises =>
    refine ⟨rises hon, by rw [rises hon]; omega, ?_⟩
    rw [envStep_of_attack_rises hs hon]
    exact readReg_stage_eq.mpr hs
  case strict =>
    by_cases hend : 65535 - (s.reg v .env).toNat ≤ (s.reg v .atk).toNat
    · rw [envStep_of_attack_ends hs hend] at hstay
      cases hstay
    · rw [rises (Nat.lt_of_not_le hend)]
      omega

/-- Settles O33, by the two branches of R114. -/
theorem etickInDecay : Obligations.EtickInDecay := by
  intro s v hs
  refine ⟨_, (ExecNext.etick s).exec_eq, finishedWith_mapVoices .., ?_⟩
  rw [reg_stage_etick, reg_env_etick]
  replace hs : (s.voice v).stage = .decay := reg_stage_eq.mp hs
  refine ⟨fun hend => ?ends, fun hon => ?falls⟩
  case ends => rw [envStep_of_decay_ends hs hend]; exact ⟨rfl, rfl⟩
  case falls =>
    rw [envStep_of_decay_falls hs hon, atLevel_sub_env_toNat]
    exact ⟨rfl, Nat.lt_sub_of_add_lt hon, readReg_stage_eq.mpr hs⟩

/-- Settles O34, by the two branches of R116. -/
theorem etickInRelease : Obligations.EtickInRelease := by
  intro s v hs
  refine ⟨_, (ExecNext.etick s).exec_eq, finishedWith_mapVoices .., ?_⟩
  rw [reg_stage_etick, reg_env_etick, voice_finish, voice_mapVoices]
  replace hs : (s.voice v).stage = .release := reg_stage_eq.mp hs
  refine ⟨fun hend => ?ends, fun hon => ?falls⟩
  case ends =>
    unfold Voice.controlTick
    rw [envStep_of_release_ends hs hend]
    exact ⟨rfl, rfl, rfl⟩
  case falls =>
    rw [envStep_of_release_falls hs hon, atLevel_sub_env_toNat]
    exact ⟨rfl, Nat.sub_pos_of_lt hon, readReg_stage_eq.mpr hs⟩

/-! ### What ETICK reads and writes (R111, R117, R118) -/

theorem controlTick_age_toNat (x : Voice) : x.controlTick.age.toNat = (x.age.toNat + 1) % 65536 := by
  rw [controlTick_age]
  zify
  exact wrapu_toNat 16 _

/-- Settles O35: of one bank, `env_step` and the age counter's advance. -/
theorem etickAgesAndChangesNothingElse : Obligations.EtickAgesAndChangesNothingElse := by
  intro s
  refine ⟨_, (ExecNext.etick s).exec_eq, finishedWith_mapVoices .., fun v => ?_⟩
  simp only [reg_finish, reg_mapVoices]
  refine ⟨controlTick_age_toNat (s.voice v), fun r hstage henv hage => ?_⟩
  rw [readReg_controlTick _ hage, readReg_envStep_of_ne _ hstage henv, State.reg]

/-- Settles O36: both states have the same bank v, and ETICK maps one function over the banks. -/
theorem etickTreatsVoicesIndependently : Obligations.EtickTreatsVoicesIndependently := by
  intro s s' v h
  have hv : s.voice v = s'.voice v := Voice.ext_readReg h
  refine ⟨_, _, (ExecNext.etick s).exec_eq, (ExecNext.etick s').exec_eq, fun r => ?_⟩
  simp only [reg_finish, reg_mapVoices, hv]

/-! ### The stage changes (R119) -/

/-- The commands that may write STAGE of v (R29). -/
theorem mayWrite_stage_cases (h : mayWrite i v .stage = true) :
    (∃ imm, i = .wr v 0x08 imm) ∨ (∃ key, i = .kon v key) ∨ (∃ key, i = .koff key) ∨ i = .etick := by
  cases i with
  | wr w n imm =>
    obtain ⟨rfl, hn⟩ : w = v ∧ vregOf n = some .stage := by
      unfold mayWrite at h
      simpa using h
    obtain rfl := number_of_vregOf hn
    exact .inl ⟨imm, rfl⟩
  | kon w key =>
    obtain rfl : w = v := by
      unfold mayWrite at h
      simpa using h
    exact .inr (.inl ⟨key, rfl⟩)
  | koff key => exact .inr (.inr (.inl ⟨key, rfl⟩))
  | etick => exact .inr (.inr (.inr rfl))
  | nop | rd | rdg | fmdk | refr | sync => unfold mayWrite at h; simp at h

/-- `env_step` changes the stage in the clamping branches of R113, R114 and R116 alone. -/
theorem envStep_stage_cases (h : x.envStep.stage ≠ x.stage) :
    (x.stage = .attack ∧ x.envStep.stage = .decay ∧ 65535 - x.env.toNat ≤ x.atk.toNat) ∨
    (x.stage = .decay ∧ x.envStep.stage = .sustain ∧ x.env.toNat ≤ x.sus.toNat + x.dcy.toNat) ∨
    (x.stage = .release ∧ x.envStep.stage = .idle ∧ x.env.toNat ≤ x.rls.toNat) := by
  cases hs : x.stage with
  | idle => rw [envStep_of_idle hs] at h; exact absurd rfl h
  | sustain => rw [envStep_of_sustain hs] at h; exact absurd rfl h
  | attack =>
    by_cases hend : 65535 - x.env.toNat ≤ x.atk.toNat
    · rw [envStep_of_attack_ends hs hend]
      exact .inl ⟨rfl, rfl, hend⟩
    · rw [envStep_of_attack_rises hs (Nat.lt_of_not_le hend)] at h
      exact absurd rfl h
  | decay =>
    by_cases hend : x.env.toNat ≤ x.sus.toNat + x.dcy.toNat
    · rw [envStep_of_decay_ends hs hend]
      exact .inr (.inl ⟨rfl, rfl, hend⟩)
    · rw [envStep_of_decay_falls hs (Nat.lt_of_not_le hend)] at h
      exact absurd rfl h
  | release =>
    by_cases hend : x.env.toNat ≤ x.rls.toNat
    · rw [envStep_of_release_ends hs hend]
      exact .inr (.inr ⟨rfl, rfl, hend⟩)
    · rw [envStep_of_release_falls hs (Nat.lt_of_not_le hend)] at h
      exact absurd rfl h

/-- Settles O37, by the commands that may write STAGE. -/
theorem stageChangesAreTheTable : Obligations.StageChangesAreTheTable := by
  intro i s t v hexec hwr hne
  have hx := exec_next_cases hexec
  have hmay : mayWrite i v .stage = true := by
    by_contra h
    exact hne (hx.reg_eq_of_not_mayWrite (Bool.eq_false_of_not_eq_true h))
  obtain ⟨imm, rfl⟩ | ⟨key, rfl⟩ | ⟨key, rfl⟩ | rfl := mayWrite_stage_cases hmay
  · exact absurd rfl (hwr imm)
  · cases hx
    exact .inl ⟨key, rfl, reg_setVoice_self ..⟩
  · cases hx
    rw [reg_finish, reg_mapVoices] at hne ⊢
    have hkey : (s.voice v).key = key := by
      by_contra h
      exact hne (by rw [releaseKey_of_ne h, State.reg])
    exact .inr (.inl ⟨key, rfl, readReg_key_eq.mpr hkey, readReg_stage_releaseKey hkey⟩)
  · cases hx
    rw [reg_stage_etick] at hne ⊢
    have hstep : (s.voice v).envStep.stage ≠ (s.voice v).stage := mt readReg_stage_eq.mpr hne
    right; right
    obtain ⟨hs, ht, hend⟩ | ⟨hs, ht, hend⟩ | ⟨hs, ht, hend⟩ := envStep_stage_cases hstep
    · exact .inl ⟨rfl, reg_stage_eq.mpr hs, readReg_stage_eq.mpr ht, hend⟩
    · exact .inr (.inl ⟨rfl, reg_stage_eq.mpr hs, readReg_stage_eq.mpr ht, hend⟩)
    · exact .inr (.inr ⟨rfl, reg_stage_eq.mpr hs, readReg_stage_eq.mpr ht, hend⟩)

end Sys2Proof.Machine
end

section
/-! How long a stage lasts, in ticks (spec/42_envelope.md R120 to R122). A run that leaves a voice's envelope to ETICK does to it what as
many `env_step`s do; and in a stage that `env_step` crosses by equal steps, so many of them are a sum. -/

namespace Sys2Proof.Machine

variable {s t : State} {i : Instr} {v : VoiceIx} {x y : Voice}

/-! ### What `env_step` depends on -/

/-- Two banks agree in the six registers that `env_step` reads and writes. -/
structure SameEnvelope (x y : Voice) : Prop where
  stage : x.stage = y.stage
  env   : x.env = y.env
  atk   : x.atk = y.atk
  dcy   : x.dcy = y.dcy
  sus   : x.sus = y.sus
  rls   : x.rls = y.rls

theorem SameEnvelope.refl (x : Voice) : SameEnvelope x x := ⟨rfl, rfl, rfl, rfl, rfl, rfl⟩

theorem SameEnvelope.trans {z : Voice} (h : SameEnvelope x y) (h' : SameEnvelope y z) : SameEnvelope x z :=
  ⟨h.stage.trans h'.stage, h.env.trans h'.env, h.atk.trans h'.atk, h.dcy.trans h'.dcy, h.sus.trans h'.sus, h.rls.trans h'.rls⟩

theorem sameEnvelope_of_readReg
    (h : ∀ r ∈ [VReg.stage, .env, .atk, .dcy, .sus, .rls], x.readReg r = y.readReg r) : SameEnvelope x y where
  stage := readReg_stage_eq.mp (h .stage (by decide))
  env   := h .env (by decide)
  atk   := h .atk (by decide)
  dcy   := h .dcy (by decide)
  sus   := h .sus (by decide)
  rls   := h .rls (by decide)

/-- `env_step` makes of the same envelope the same envelope. -/
theorem SameEnvelope.envStep (h : SameEnvelope x y) : SameEnvelope x.envStep y.envStep := by
  cases hy : y.stage with
  | idle => rwa [envStep_of_idle hy, envStep_of_idle (h.stage.trans hy)]
  | sustain => rwa [envStep_of_sustain hy, envStep_of_sustain (h.stage.trans hy)]
  | attack =>
    rw [envStep_of_attack hy, envStep_of_attack (h.stage.trans hy), h.env, h.atk]
    split
    · exact { h with stage := rfl, env := rfl, atk := rfl }
    · exact { h with env := rfl, atk := rfl }
  | decay =>
    rw [envStep_of_decay hy, envStep_of_decay (h.stage.trans hy), h.env, h.sus, h.dcy]
    split
    · exact { h with stage := rfl, env := rfl, sus := rfl, dcy := rfl }
    · exact { h with env := rfl, sus := rfl, dcy := rfl }
  | release =>
    rw [envStep_of_release hy, envStep_of_release (h.stage.trans hy), h.env, h.rls]
    split
    · exact { h with stage := rfl, env := rfl, rls := rfl }
    · exact { h with env := rfl, rls := rfl }

theorem SameEnvelope.iterate_envStep (h : SameEnvelope x y) (n : Nat) :
    SameEnvelope (Voice.envStep^[n] x) (Voice.envStep^[n] y) := by
  induction n generalizing x y with
  | zero => exact h
  | succ n ih => exact ih h.envStep

/-! ### A run's part in a voice's envelope -/

theorem leavesEnvelope_iff :
    leavesEnvelope v i = true ↔ ∀ r ∈ [VReg.stage, .env, .atk, .dcy, .sus, .rls], mayWrite i v r = false := by
  unfold leavesEnvelope
  simp only [List.all_eq_true, Bool.not_eq_true']

/-- A command that `envelopeKeptBy` names leaves the envelope. -/
theorem ExecNext.sameEnvelope_of_kept (hx : ExecNext i s t) (h : s.envelopeKeptBy v i = true) :
    SameEnvelope (t.voice v) (s.voice v) := by
  obtain h | h := Bool.or_eq_true_iff.mp h
  · exact sameEnvelope_of_readReg fun r hr => hx.reg_eq_of_not_mayWrite (leavesEnvelope_iff.mp h r hr)
  · cases hx with
    | koff _ key =>
      have hkey : (s.voice v).key ≠ key := mt readReg_key_eq.mpr (bne_iff_ne.mp h)
      rw [voice_finish, voice_mapVoices, releaseKey_of_ne hkey]
      exact .refl _
    | _ => cases h

/-- ETICK does `env_step` to the envelope, and besides only ages the voice. -/
theorem ExecNext.sameEnvelope_etick (hx : ExecNext .etick s t) (v : VoiceIx) :
    SameEnvelope (t.voice v) (s.voice v).envStep := by
  cases hx
  rw [voice_finish, voice_mapVoices]
  exact ⟨rfl, rfl, rfl, rfl, rfl, rfl⟩

/-- What `envelopeRun` asks of a command and of the run behind it. -/
theorem envelopeRun_command (ls : List ListingLine) (hx : exec i s = .next t) :
    envelopeRun v (.command i :: ls) s = true ↔
      (i = .etick ∨ s.envelopeKeptBy v i = true) ∧ (i = .sync → s.sdue = true) ∧ envelopeRun v ls t = true := by
  simp only [envelopeRun, hx, Bool.and_eq_true, Bool.or_eq_true, beq_iff_eq, bne_iff_ne, and_assoc, ne_eq, ← imp_iff_not_or]

/-- A run that leaves the envelope of v to ETICK does to it what one `env_step` for each ETICK does. -/
theorem execLines_envelopeRun (ls : List ListingLine) (s : State) (h : envelopeRun v ls s = true) :
    ∃ t, execLines ls s = .next t ∧
      SameEnvelope (t.voice v) (Voice.envStep^[ls.count (.command .etick)] (s.voice v)) := by
  induction ls generalizing s with
  | nil => exact ⟨s, rfl, .refl _⟩
  | cons l ls ih =>
    cases l with
    | boundary => exact ih s.boundary h
    | reset => cases h
    | command i =>
      obtain ⟨t, hx⟩ := ExecNext.exists_next i s
      obtain ⟨hi, hsync, hls⟩ := (envelopeRun_command ls hx.exec_eq).mp h
      obtain ⟨u, hu, henv⟩ := ih t hls
      have hheld : t.held = false := by
        by_contra hn
        obtain ⟨hi, hdue⟩ := (held_of_exec hx.exec_eq).mp (Bool.eq_true_of_not_eq_false hn)
        simp [hsync hi] at hdue
      refine ⟨u, (execLines_command ls hx.exec_eq hheld).trans hu, henv.trans ?_⟩
      by_cases he : i = .etick
      · subst he
        rw [List.count_cons_self, Function.iterate_succ_apply]
        exact (hx.sameEnvelope_etick v).iterate_envStep _
      · rw [List.count_cons_of_ne (by simpa using he)]
        exact (hx.sameEnvelope_of_kept (hi.resolve_left he)).iterate_envStep _

/-! ### A stage crossed by equal steps -/

/-- The number of ticks it takes to cross a distance m by steps of d: one at least, since it is a tick that ends a stage. -/
def ticksToCross (m d : Nat) : Nat := max 1 ((m + d - 1) / d)

/-- After n ticks, fewer than it takes, the distance is not crossed yet. -/
theorem lt_ticksToCross {m d n : Nat} (hd : 1 ≤ d) : n < ticksToCross m d ↔ n = 0 ∨ n * d < m := by
  have hceil : n < (m + d - 1) / d ↔ n * d < m := by
    rw [← Nat.ceilDiv_eq_add_pred_div, ← not_le, ceilDiv_le_iff_le_mul hd, not_le, Nat.mul_comm]
  rw [ticksToCross, lt_max_iff, hceil, Nat.lt_one_iff]

/-- The last tick is the one by which the distance is crossed. -/
theorem ticksToCross_eq_succ {m d : Nat} (hd : 1 ≤ d) :
    ∃ k, ticksToCross m d = k + 1 ∧ (k = 0 ∨ k * d < m) ∧ m ≤ (k + 1) * d := by
  obtain ⟨k, hk⟩ : ∃ k, ticksToCross m d = k + 1 := Nat.exists_eq_succ_of_ne_zero (by unfold ticksToCross; omega)
  refine ⟨k, hk, (lt_ticksToCross hd).mp (by omega), ?_⟩
  have hnot : ¬(k + 1 < ticksToCross m d) := by omega
  rw [lt_ticksToCross hd] at hnot
  omega

/-- Where `env_step` takes each of the banks `p 0`, `p 1`, … to the next, as long as the distance m is not crossed, and from the last to
`z`, a run leaves the envelope of the bank with the number of its ETICKs, and `z` after the tick that crosses. -/
theorem execLines_crossing {ls : List ListingLine} {p : Nat → Voice} {z : Voice} {m d : Nat} (h : envelopeRun v ls s = true) (hd : 1 ≤ d)
    (start : s.voice v = p 0) (next : ∀ k, (k + 1) * d < m → (p k).envStep = p (k + 1))
    (last : ∀ k, k = 0 ∨ k * d < m → m ≤ (k + 1) * d → (p k).envStep = z) :
    ∃ t, execLines ls s = .next t ∧
      (ls.count (.command .etick) < ticksToCross m d → SameEnvelope (t.voice v) (p (ls.count (.command .etick)))) ∧
      (ls.count (.command .etick) = ticksToCross m d → SameEnvelope (t.voice v) z) := by
  obtain ⟨t, ht, henv⟩ := execLines_envelopeRun ls s h
  have iterate (k : Nat) (hk : k = 0 ∨ k * d < m) : Voice.envStep^[k] (s.voice v) = p k := by
    induction k with
    | zero => exact start
    | succ k ih =>
      have hlt : (k + 1) * d < m := hk.resolve_left (Nat.succ_ne_zero k)
      rw [Function.iterate_succ_apply', ih (.inr (lt_of_le_of_lt (Nat.mul_le_mul_right d k.le_succ) hlt)), next k hlt]
  refine ⟨t, ht, fun hn => ?_, fun hn => ?_⟩
  · rwa [iterate _ ((lt_ticksToCross hd).mp hn)] at henv
  · obtain ⟨k, hk, hon, hend⟩ := ticksToCross_eq_succ (m := m) hd
    rwa [hn, hk, Function.iterate_succ_apply', iterate k hon, last k hon hend] at henv

/-! ### The three stages that end (R120, R121, R122) -/

section
variable {e : Nat} (he : e ≤ 65535)
include he

theorem envStep_atLevel_of_attack (hs : x.stage = .attack) :
    (x.atLevel e).envStep = if 65535 - e ≤ x.atk.toNat then { x with env := 0xFFFF, stage := .decay }
      else x.atLevel (e + x.atk.toNat) := by
  have h := envStep_of_attack (x := x.atLevel e) hs
  rwa [atLevel_env_toNat x he] at h

theorem envStep_atLevel_of_decay (hs : x.stage = .decay) :
    (x.atLevel e).envStep = if e ≤ x.sus.toNat + x.dcy.toNat then { x with env := x.sus, stage := .sustain }
      else x.atLevel (e - x.dcy.toNat) := by
  have h := envStep_of_decay (x := x.atLevel e) hs
  rwa [atLevel_env_toNat x he] at h

theorem envStep_atLevel_of_release (hs : x.stage = .release) :
    (x.atLevel e).envStep = if e ≤ x.rls.toNat then { x with env := 0, stage := .idle }
      else x.atLevel (e - x.rls.toNat) := by
  have h := envStep_of_release (x := x.atLevel e) hs
  rwa [atLevel_env_toNat x he] at h

end

/-- Settles O38: an attack crosses 65535 by steps of ATK. -/
theorem attackLastsItsNumberOfTicks : Obligations.AttackLastsItsNumberOfTicks := by
  intro ls s v a hrun hs henv ha hpos
  replace hs : (s.voice v).stage = .attack := reg_stage_eq.mp hs
  replace ha : (s.voice v).atk.toNat = a := ha
  have start : s.voice v = (s.voice v).atLevel (0 * a) := by
    rw [Nat.zero_mul, show 0 = (s.voice v).env.toNat from (congrArg BitVec.toNat henv).symm, atLevel_env]
  have next (k : Nat) (h : (k + 1) * a < 65535) :
      ((s.voice v).atLevel (k * a)).envStep = (s.voice v).atLevel ((k + 1) * a) := by
    rw [Nat.succ_mul] at h ⊢
    rw [envStep_atLevel_of_attack (by omega) hs, ha, if_neg (by omega)]
  have last (k : Nat) (h : k = 0 ∨ k * a < 65535) (hend : 65535 ≤ (k + 1) * a) :
      ((s.voice v).atLevel (k * a)).envStep = { s.voice v with env := 0xFFFF, stage := .decay } := by
    have hk : k * a ≤ 65535 := h.elim (by rintro rfl; omega) Nat.le_of_lt
    rw [Nat.succ_mul] at hend
    rw [envStep_atLevel_of_attack hk hs, ha, if_pos (by omega)]
  have hticks : (65535 + a - 1) / a = ticksToCross 65535 a :=
    (max_eq_right ((Nat.one_le_div_iff hpos).mpr (by omega))).symm
  obtain ⟨t, ht, hon, hend⟩ := execLines_crossing hrun hpos start next last
  rw [hticks]
  refine ⟨t, ht, fun hn => ?on, fun hn => ?ends⟩
  case on =>
    have hlevel : ls.count (.command .etick) * a ≤ 65535 :=
      ((lt_ticksToCross hpos).mp hn).elim (fun h => by rw [h]; omega) Nat.le_of_lt
    exact ⟨reg_stage_eq.mpr ((hon hn).stage.trans hs),
      (congrArg BitVec.toNat (hon hn).env).trans (atLevel_env_toNat _ hlevel)⟩
  case ends => exact ⟨reg_stage_eq.mpr (hend hn).stage, congrArg BitVec.toNat (hend hn).env⟩

/-- A stage in which `env_step` takes d from the level l while it is above u + d, and else ends the stage: the level falls by the number of
ETICKs times d, and stays above u after the first of them. -/
theorem execLines_fall {ls : List ListingLine} {z : Voice} {l u d : Nat} (hrun : envelopeRun v ls s = true) (hd : 1 ≤ d)
    (hl : (s.voice v).env.toNat = l)
    (step : ∀ e ≤ 65535, ((s.voice v).atLevel e).envStep = if e ≤ u + d then z else (s.voice v).atLevel (e - d)) :
    ∃ t, execLines ls s = .next t ∧
      (ls.count (.command .etick) < ticksToCross (l - u) d →
        (t.voice v).stage = (s.voice v).stage ∧ (t.voice v).env.toNat = l - ls.count (.command .etick) * d ∧
        (1 ≤ ls.count (.command .etick) → u < (t.voice v).env.toNat)) ∧
      (ls.count (.command .etick) = ticksToCross (l - u) d → (t.voice v).stage = z.stage ∧ (t.voice v).env = z.env) := by
  have hl' : l ≤ 65535 := hl ▸ Nat.le_of_lt_succ (s.voice v).env.isLt
  have start : s.voice v = (s.voice v).atLevel (l - 0 * d) := by
    rw [Nat.zero_mul, Nat.sub_zero, ← hl, atLevel_env]
  have next (k : Nat) (h : (k + 1) * d < l - u) :
      ((s.voice v).atLevel (l - k * d)).envStep = (s.voice v).atLevel (l - (k + 1) * d) := by
    rw [Nat.succ_mul] at h ⊢
    rw [step _ (by omega), if_neg (by omega), Nat.sub_sub]
  have last (k : Nat) (hend : l - u ≤ (k + 1) * d) : ((s.voice v).atLevel (l - k * d)).envStep = z := by
    rw [Nat.succ_mul] at hend
    rw [step _ (by omega), if_pos (by omega)]
  obtain ⟨t, ht, hon, hend⟩ := execLines_crossing hrun hd start next fun k _ => last k
  refine ⟨t, ht, fun hn => ?on, fun hn => ⟨(hend hn).stage, (hend hn).env⟩⟩
  have level : (t.voice v).env.toNat = l - ls.count (.command .etick) * d :=
    (congrArg BitVec.toNat (hon hn).env).trans (atLevel_env_toNat _ (by omega))
  refine ⟨(hon hn).stage, level, fun hpos => ?_⟩
  have := ((lt_ticksToCross hd).mp hn).resolve_left (by omega)
  omega

/-- Settles O39: a decay crosses the distance from 65535 to SUS by steps of DCY. -/
theorem decayLastsItsNumberOfTicks : Obligations.DecayLastsItsNumberOfTicks := by
  intro ls s v d u hrun hs henv hdcy hsus hpos
  replace hs : (s.voice v).stage = .decay := reg_stage_eq.mp hs
  replace hdcy : (s.voice v).dcy.toNat = d := hdcy
  replace hsus : (s.voice v).sus.toNat = u := hsus
  obtain ⟨t, ht, hon, hend⟩ := execLines_fall hrun hpos (congrArg BitVec.toNat henv) fun e he => by
    rw [envStep_atLevel_of_decay he hs, hdcy, hsus]
  refine ⟨t, ht, fun hn => ?on, fun hn => ?ends⟩
  case on =>
    obtain ⟨hstage, hlevel, habove⟩ := hon hn
    exact ⟨reg_stage_eq.mpr (hstage.trans hs), hlevel, habove⟩
  case ends =>
    obtain ⟨hstage, hlevel⟩ := hend hn
    exact ⟨reg_stage_eq.mpr hstage, (congrArg BitVec.toNat hlevel).trans hsus⟩

/-- Settles O40: a release crosses the distance from its level to 0 by steps of RLS. -/
theorem releaseLastsItsNumberOfTicks : Obligations.ReleaseLastsItsNumberOfTicks := by
  intro ls s v l r hrun hs henv hrls hpos
  replace hs : (s.voice v).stage = .release := reg_stage_eq.mp hs
  replace hrls : (s.voice v).rls.toNat = r := hrls
  obtain ⟨t, ht, hon, hend⟩ := execLines_fall (u := 0) hrun hpos henv fun e he => by
    rw [envStep_atLevel_of_release he hs, hrls, Nat.zero_add]
  refine ⟨t, ht, fun hn => ?on, fun hn => ?ends⟩
  case on =>
    obtain ⟨hstage, hlevel, habove⟩ := hon hn
    exact ⟨reg_stage_eq.mpr (hstage.trans hs), hlevel, habove⟩
  case ends =>
    obtain ⟨hstage, hlevel⟩ := hend hn
    exact ⟨reg_stage_eq.mpr hstage, hlevel⟩

end Sys2Proof.Machine
end

section
/-! The FM exponential's decay and the parameter refresh (spec/43_fm_parameters.md): FMDK on every voice (R130), REFR on one voice
(R135 to R138). -/

namespace Sys2Proof.Machine

variable {s : State} {v w : VoiceIx}

/-- Settles O42: FMDK finishes with `fmDecay` done on every bank. -/
theorem fmdkDecaysEveryVoice : Obligations.FmdkDecaysEveryVoice := by
  intro s
  refine ⟨_, (ExecNext.fmdk s).exec_eq, finishedWith_mapVoices .., fun v => ?_⟩
  simp only [reg_finish, reg_mapVoices]
  exact ⟨fmDecay_fmexp_toNat (s.voice v), fun _ hr => readReg_fmDecay_of_ne _ hr⟩

/-! ### The state REFR leaves (R135) -/

/-- The state REFR v leaves. -/
def State.refreshed (s : State) (v : VoiceIx) : State := (s.setVoice v (s.voice v).refresh).finish .done

theorem exec_refr (s : State) (v : VoiceIx) : exec (.refr v) s = .next (s.refreshed v) := (ExecNext.refr s v).exec_eq

theorem execSeq_refr (s : State) (v : VoiceIx) (is : List Instr) :
    execSeq (.refr v :: is) s = execSeq is (s.refreshed v) := execSeq_cons is (exec_refr s v) rfl

theorem voice_refreshed_self (s : State) (v : VoiceIx) : (s.refreshed v).voice v = (s.voice v).refresh :=
  voice_setVoice_self ..

theorem voice_refreshed_of_ne (s : State) (h : w ≠ v) : (s.refreshed v).voice w = s.voice w :=
  voice_setVoice_of_ne s _ h

theorem reg_refreshed_self (s : State) (v : VoiceIx) (r : VReg) :
    (s.refreshed v).reg v r = (s.voice v).refresh.readReg r := reg_setVoice_self ..

theorem reg_refreshed_of_ne (s : State) (r : VReg) (h : w ≠ v) : (s.refreshed v).reg w r = s.reg w r :=
  reg_eq_of_voice (voice_refreshed_of_ne s h) r

/-! ### The latches as numbers (R136, R137) -/

theorem reg_amp_refreshed (s : State) (v : VoiceIx) : ((s.refreshed v).reg v .amp).toNat = (s.voice v).ampValue.toNat := by
  rw [reg_refreshed_self]
  exact setWidth_byte_toNat _

theorem reg_amp_refreshed_toNat (s : State) (v : VoiceIx) :
    ((s.refreshed v).reg v .amp).toNat = (s.reg v .ampbase).toNat * ((s.reg v .env).toNat / 256) / 256 := by
  have hampbase : (s.reg v .ampbase).toNat = (s.voice v).ampbase.toNat := setWidth_byte_toNat _
  rw [reg_amp_refreshed, ampValue_toNat, hampbase]
  rfl

theorem reg_amp_refreshed_le (s : State) (v : VoiceIx) : ((s.refreshed v).reg v .amp).toNat ≤ 254 :=
  (reg_amp_refreshed s v).trans_le (ampValue_le _)

theorem reg_fmamp_refreshed_toNat (s : State) (v : VoiceIx) :
    (((s.refreshed v).reg v .fmamp).toNat : Int) =
      ((s.reg v .fma0).toNat + (s.reg v .fmda).toInt * (s.reg v .fmexp).toNat / 65536) % 65536 := by
  rw [reg_refreshed_self]
  exact fmampValue_toNat (s.voice v)

/-- Settles O44: REFR finishes with `refresh` done on one bank. -/
theorem refrRecomputesTheLatches : Obligations.RefrRecomputesTheLatches := by
  intro s v
  refine ⟨_, exec_refr s v, finishedWith_setVoice .., reg_amp_refreshed_toNat s v, reg_amp_refreshed_le s v,
    reg_fmamp_refreshed_toNat s v, fun r hamp hfmamp => ?_, fun _ r hw => reg_refreshed_of_ne s r hw⟩
  rw [reg_refreshed_self, readReg_refresh_of_ne _ hamp hfmamp, State.reg]

/-! ### The corner cases of FMAMP (R138) -/

/-- FMAMP is FMA0 plus the term, where FMEXP is the number k. -/
theorem reg_fmamp_refreshed_of_term {k : Nat} {term : Int} (hx : (s.reg v .fmexp).toNat = k)
    (hterm : (s.reg v .fmda).toInt * k / 65536 = term) :
    (((s.refreshed v).reg v .fmamp).toNat : Int) = ((s.reg v .fma0).toNat + term) % 65536 := by
  rw [reg_fmamp_refreshed_toNat, hx, hterm]

/-- A term of 0 leaves FMA0. -/
theorem reg_fmamp_refreshed_of_term_zero {k : Nat} (hx : (s.reg v .fmexp).toNat = k)
    (hterm : (s.reg v .fmda).toInt * k / 65536 = 0) : (s.refreshed v).reg v .fmamp = s.reg v .fma0 := by
  have hsum := reg_fmamp_refreshed_of_term hx hterm
  have hlt := (s.reg v .fma0).isLt
  apply BitVec.eq_of_toNat_eq
  omega

/-- Settles O45: in each case the floor of the shifted product, FMDA being at least -32768 and below 32768. -/
theorem fmAmplitudeCorners : Obligations.FmAmplitudeCorners := by
  intro s v
  have hmin := (s.reg v .fmda).le_toInt
  have hmax := (s.reg v .fmda).toInt_lt
  refine ⟨_, exec_refr s v, fun hx hd => ?max_pos, fun hx hd => ?max_nonpos, fun hx hd => ?one_neg, fun hx hd => ?one_nonneg,
    fun hx => ?zero⟩
  case max_pos =>
    rw [Int.add_sub_assoc]
    exact reg_fmamp_refreshed_of_term (k := 65535) (congrArg BitVec.toNat hx) (by omega)
  case max_nonpos => exact reg_fmamp_refreshed_of_term (k := 65535) (congrArg BitVec.toNat hx) (by omega)
  case one_neg =>
    rw [Int.sub_eq_add_neg]
    exact reg_fmamp_refreshed_of_term (k := 1) (congrArg BitVec.toNat hx) (by omega)
  case one_nonneg => exact reg_fmamp_refreshed_of_term_zero (k := 1) (congrArg BitVec.toNat hx) (by omega)
  case zero => exact reg_fmamp_refreshed_of_term_zero (k := 0) (congrArg BitVec.toNat hx) (by omega)

/-! ### Two REFR (R135) -/

/-- The latches are recomputed from registers that REFR leaves. -/
theorem refresh_refresh (x : Voice) : x.refresh.refresh = x.refresh := rfl

theorem refreshed_refreshed_voices (s : State) (v : VoiceIx) : ((s.refreshed v).refreshed v).voices = (s.refreshed v).voices := by
  refine Voices.ext_get fun w => ?_
  change ((s.refreshed v).refreshed v).voice w = (s.refreshed v).voice w
  by_cases h : w = v
  · subst h
    rw [voice_refreshed_self, voice_refreshed_self, refresh_refresh]
  · exact voice_refreshed_of_ne _ h

/-- The banks of two voices are replaced in either order (R20). -/
theorem set_set_comm (b : Voices) (x y : Voice) (h : v ≠ w) : (b.set v x).set w y = (b.set w y).set v x := by
  refine Voices.ext_get fun u => ?_
  by_cases hv : u = v
  · subst hv
    rw [Voices.get_set_of_ne _ _ h, Voices.get_set_self, Voices.get_set_self]
  · by_cases hw : u = w
    · subst hw
      rw [Voices.get_set_self, Voices.get_set_of_ne _ _ hv, Voices.get_set_self]
    · simp only [Voices.get_set_of_ne _ _ hv, Voices.get_set_of_ne _ _ hw]

theorem setVoice_setVoice_comm (s : State) (x y : Voice) (h : v ≠ w) :
    (s.setVoice v x).setVoice w y = (s.setVoice w y).setVoice v x := by
  simp only [State.setVoice, set_set_comm s.voices x y h]

/-- The second REFR reads the bank of w as it was before the first. -/
theorem refreshed_refreshed_of_ne (s : State) (h : w ≠ v) : (s.refreshed v).refreshed w =
    (((s.setVoice v (s.voice v).refresh).setVoice w (s.voice w).refresh).finish .done).finish .done := by
  rw [State.refreshed, voice_refreshed_of_ne s h]
  rfl

theorem refreshed_comm (s : State) (v w : VoiceIx) : (s.refreshed v).refreshed w = (s.refreshed w).refreshed v := by
  by_cases h : v = w
  · rw [h]
  · rw [refreshed_refreshed_of_ne s (Ne.symm h), refreshed_refreshed_of_ne s h, setVoice_setVoice_comm s _ _ h]

/-- Settles O46: a second REFR of v finds the registers it reads as the first left them, and REFR of another voice reads and writes
another bank. -/
theorem refrIsIdempotentAndCommutes : Obligations.RefrIsIdempotentAndCommutes := by
  intro s v w
  simp only [execSeq_refr, execSeq_nil]
  exact ⟨⟨_, _, rfl, rfl, refreshed_refreshed_voices s v⟩, ⟨_, rfl, congrArg _ (refreshed_comm s w v)⟩⟩

end Sys2Proof.Machine
end

section
/-! The sample stage (spec/44_sample_stage.md): a SYNC that runs consumes the boundary, advances every phase (R153) and writes the
quantised mix to DUTY (R154 to R161); and a boundary that comes before the last one was consumed is lost (R218). -/

namespace Sys2Proof.Machine

variable {s s' : State}

/-! ### The phases (R153) -/

theorem reg_phase_sampleUpdate (s : State) (v : VoiceIx) : s.sampleUpdate.reg v .phase = s.reg v .phase + s.reg v .inc := by
  rw [reg_sampleUpdate]
  exact advance_phase (s.voice v)

theorem reg_fmphase_sampleUpdate (s : State) (v : VoiceIx) :
    s.sampleUpdate.reg v .fmphase = s.reg v .fmphase + s.reg v .fminc := by
  rw [reg_sampleUpdate]
  exact advance_fmphase (s.voice v)

theorem reg_sampleUpdate_of_ne (s : State) (v : VoiceIx) {r : VReg} (hp : r ≠ .phase) (hf : r ≠ .fmphase) :
    s.sampleUpdate.reg v r = s.reg v r := by
  rw [reg_sampleUpdate, readReg_advance_of_ne _ hp hf, State.reg]

/-- Settles O48, by the state that a SYNC that runs leaves. -/
theorem syncAdvancesEveryPhase : Obligations.SyncAdvancesEveryPhase := by
  intro s hdue
  let u : State := { s with sdue := false }
  refine ⟨_, (ExecNext.syncRuns hdue).exec_eq, fun v => ⟨?phase, ?fmphase, fun _ hp hf => reg_sampleUpdate_of_ne u v hp hf⟩,
    rfl, rfl, rfl, rfl, rfl, rfl, rfl, rfl⟩
  case phase => exact (congrArg BitVec.toNat (reg_phase_sampleUpdate u v)).trans (BitVec.toNat_add ..)
  case fmphase => exact (congrArg BitVec.toNat (reg_fmphase_sampleUpdate u v)).trans (BitVec.toNat_add ..)

/-! ### A boundary that is lost (R218) -/

theorem boundary_of_due (h : s.sdue = true) : s.boundary = s := by
  rw [State.boundary, ← h]

theorem runSteps_boundary {ts : List Turn} (k : Nat) (h : s.schedule = .boundary :: ts) :
    runSteps (k + 1) s = runSteps k s.turnTaken.boundary :=
  runSteps_succ k (StepNext.boundary h).step_eq

/-- Settles O16: the second boundary finds SDUE set, the first SYNC consumes it, and the second SYNC finds none. -/
theorem missedBoundaryIsLost : Obligations.MissedBoundaryIsLost := by
  refine ⟨fun s ts hdue hs => ?lost, fun s ts rest hs hc => ?run⟩
  case lost => rw [(StepNext.boundary hs).step_eq, boundary_of_due (s := s.turnTaken) hdue, turnTaken_of_schedule_cons hs]
  case run =>
    let due := s.turnTaken.boundary.turnTaken.boundary
    let sampled := ({ due.turnTaken with sdue := false } : State).sampleUpdate.finish .done
    have dueSchedule : due.schedule = .engine :: .engine :: ts := by simp [due, hs]
    have sampledCmds : sampled.cmds = encode .sync :: rest := by simp [sampled, due, hc]
    have boundaries : runSteps 4 s = runSteps 2 due := by
      rw [runSteps_boundary 3 hs, runSteps_boundary 2 (ts := .engine :: .engine :: ts) (by simp [hs])]
    have runs : step due = .next sampled := step_sync_runs hc rfl (.inr ⟨_, dueSchedule⟩)
    have waits : step sampled = .next sampled.turnTaken.hold :=
      step_sync_waits sampledCmds rfl (.inr ⟨ts, by simp [sampled, dueSchedule]⟩)
    refine ⟨_, boundaries.trans ((runSteps_succ 1 runs).trans (runSteps_succ 0 waits)), sampledCmds, rfl, rfl, rfl, fun v => ?_⟩
    exact ⟨reg_phase_sampleUpdate _ v, reg_fmphase_sampleUpdate _ v⟩

/-! ### One voice's contribution (R154 to R157) -/

/-- The high byte of a wrapped number, without the wrap. -/
theorem hiByte_wrapu (z : Int) : hiByte (wrapu 16 z) = BitVec.ofInt 8 (z / 256 % 256) := by
  have hhi : (hiByte (wrapu 16 z)).toNat = (wrapu 16 z).toNat / 256 := hiByte_toNat _
  have hz : ((wrapu 16 z).toNat : Int) = z % 65536 := wrapu_toNat 16 z
  have hindex : ((BitVec.ofInt 8 (z / 256 % 256)).toNat : Int) = z / 256 % 256 % 256 := wrapu_toNat 8 _
  apply BitVec.eq_of_toNat_eq
  omega

/-- What a voice with advanced phases contributes, on the registers it is computed from. -/
theorem contribution_advance (cfg : Config) (x : Voice) : x.advance.contribution cfg =
    sineAt cfg (BitVec.ofInt 8 (((x.phase + x.inc).toNat + sineAt cfg (hiByte (x.fmphase + x.fminc)) * x.fmamp.toNat) / 256 % 256)) *
      x.amp.toNat := by
  rw [Voice.contribution, Voice.modulatedPhase, Voice.modulator, hiByte_wrapu, advance_phase, advance_fmphase]
  rfl

/-- A voice whose latch is 0 contributes 0 (R157). -/
theorem contribution_of_amp_zero (cfg : Config) {x : Voice} (h : x.amp = 0) : x.contribution cfg = 0 := by
  simp [Voice.contribution, h, unsigned]

/-! ### The mix and DUTY (R158, R160, R161) -/

/-- What the four voices contribute to the sample that comes next, before the accumulator's wrap. -/
def State.mixSum (s : State) : Int := ∑ v, (s.voice v).advance.contribution s.cfg

/-- The mix is the wrapped sum. -/
theorem mix_advance (s : State) : mix s.cfg (s.voices.map Voice.advance) = wraps s.cfg.accW s.mixSum := by
  rw [State.mixSum, Fin.sum_univ_four]
  rfl

/-- DUTY after a SYNC that runs, from the sum of the contributions. -/
theorem exec_sync_duty (h : s.sdue = true) :
    ∃ t, exec .sync s = .next t ∧ t.duty = wrapu 16 (quantise s.cfg (wraps s.cfg.accW s.mixSum)) :=
  ⟨_, (ExecNext.syncRuns h).exec_eq, by rw [finish_duty, sampleUpdate_duty, mix_advance]; rfl⟩

/-- The range of the signed narrowing (R11). -/
theorem wraps_bounds {n : Nat} (hn : 0 < n) (z : Int) : -2 ^ (n - 1) ≤ wraps n z ∧ wraps n z < 2 ^ (n - 1) := by
  have hpow : (2 : Int) ^ n = 2 * 2 ^ (n - 1) := (mul_pow_sub_one hn.ne' 2).symm
  have hlow := Int.le_bmod (x := z) (m := 2 ^ n) (by positivity)
  have hhigh := Int.bmod_lt (x := z) (m := 2 ^ n) (by positivity)
  push_cast at hlow hhigh
  rw [wraps]
  omega

/-- Settles O49: acc is the wrapped sum, and each contribution is `contribution_advance`'s. -/
theorem syncWritesTheQuantisedMix : Obligations.SyncWritesTheQuantisedMix := by
  intro s hdue modulator index contribution
  have contributes (v : VoiceIx) : (s.voice v).advance.contribution s.cfg = contribution v := by
    have hamp : (s.reg v .amp).toNat = (s.voice v).amp.toNat := setWidth_byte_toNat _
    simp only [contribution, hamp]
    exact contribution_advance s.cfg (s.voice v)
  have sum : s.mixSum = contribution 0 + contribution 1 + contribution 2 + contribution 3 := by
    simp only [State.mixSum, Fin.sum_univ_four, contributes]
  obtain ⟨t, ht, hduty⟩ := exec_sync_duty hdue
  have haccW := s.cfg.accW_ge
  obtain ⟨hlow, hhigh⟩ := wraps_bounds (n := s.cfg.accW) (by omega) s.mixSum
  refine ⟨t, wraps s.cfg.accW s.mixSum, ht, hlow, hhigh, sum ▸ wraps_dvd .., ?_⟩
  rw [hduty, wrapu_toNat]
  rfl

/-- Settles O51: every contribution is 0, and 0 quantises to the midpoint. -/
theorem silenceIsTheMidpoint : Obligations.SilenceIsTheMidpoint := by
  intro s hdue hamp
  have latch (v : VoiceIx) : (s.voice v).advance.amp = 0 := amp_eq_of_readReg (y := Voice.reset) (hamp v)
  have silent : s.mixSum = 0 := Finset.sum_eq_zero fun v _ => contribution_of_amp_zero s.cfg (latch v)
  obtain ⟨t, ht, hduty⟩ := exec_sync_duty hdue
  refine ⟨t, ht, ?_⟩
  simp [hduty, silent, wraps, quantise, tdiv, wrapu_unsigned]

/-- The sum does not depend on the order of the voices (R164). -/
theorem mixSum_perm (σ : Equiv.Perm VoiceIx) (hcfg : s'.cfg = s.cfg) (h : ∀ v, s'.voice v = s.voice (σ v)) :
    s'.mixSum = s.mixSum := by
  simp only [State.mixSum, h, hcfg]
  exact Equiv.sum_comp σ fun v => (s.voice v).advance.contribution s.cfg

/-- Settles O52: a bank is told by its registers, so the banks are permuted, and the sum is the same. -/
theorem voiceOrderDoesNotMatter : Obligations.VoiceOrderDoesNotMatter := by
  intro s s' σ hdue hdue' hcfg hreg
  have hsum : s'.mixSum = s.mixSum := mixSum_perm σ hcfg fun v => Voice.ext_readReg (hreg v)
  obtain ⟨t, ht, hduty⟩ := exec_sync_duty hdue
  obtain ⟨t', ht', hduty'⟩ := exec_sync_duty hdue'
  exact ⟨t, t', ht, ht', by rw [hduty', hduty, hcfg, hsum]⟩

end Sys2Proof.Machine
end

section
/-! The allocator of the reference host (spec/47_host_reference.md R190 to R196): which voice a press goes to, and that an
assignment keeps one voice per sounding key. -/

namespace Sys2Proof.Machine

variable {s t : State} {key : U8} {n : VoiceIx}

/-! ### The three steps (R192 to R195) -/

section

variable {view : VoiceIx → VoiceView}

/-- A voice with the property among those `lowestVoice` tries makes it answer the least of them. -/
theorem exists_isLeast_lowestVoice {p : VoiceIx → Bool} (h : ∃ v, p v = true) :
    ∃ n, lowestVoice p = some n ∧ IsLeast {v | p v = true} n := by
  obtain ⟨hnone, hsome⟩ := lowestVoice_spec p
  cases hn : lowestVoice p with
  | none =>
    obtain ⟨v, hv⟩ := h
    simp [hnone.mp hn v] at hv
  | some n => exact ⟨n, rfl, hsome n hn⟩

theorem lowestVoice_eq_none {p : VoiceIx → Bool} (h : ¬∃ v, p v = true) : lowestVoice p = none :=
  (lowestVoice_spec p).1.mpr (by simpa using h)

/-- `idle(v)` on the values read, by the two registers (R36). -/
theorem VoiceView.isIdle_iff {x : VoiceView} : x.isIdle = true ↔ x.stage = 0 ∧ x.env = 0 := by
  simp [VoiceView.isIdle]

/-- A voice as read holds a key and is non-idle: what step 1 of the allocator looks for (R192). -/
def VoiceView.sounds (x : VoiceView) (key : U8) : Bool := x.key == key.setWidth 16 && !x.isIdle

theorem VoiceView.sounds_iff {x : VoiceView} :
    x.sounds key = true ↔ x.key = key.setWidth 16 ∧ ¬x.isIdle = true := by
  simp [VoiceView.sounds]

theorem retriggerVoice_eq (key : U8) (view : VoiceIx → VoiceView) :
    retriggerVoice key view = lowestVoice fun v => (view v).sounds key := rfl

/-- Step 1 decides where some voice sounds the key (R192). -/
theorem chooseVoice_of_sounding (h : ∃ v, (view v).sounds key = true) :
    IsLeast {v | (view v).sounds key = true} (chooseVoice key view) := by
  obtain ⟨n, hn, hleast⟩ := exists_isLeast_lowestVoice h
  rw [chooseVoice, retriggerVoice_eq, hn]
  exact hleast

/-- Step 2 decides where none does and some voice is idle (R193). -/
theorem chooseVoice_of_idle (hsounding : ¬∃ v, (view v).sounds key = true) (h : ∃ v, (view v).isIdle = true) :
    IsLeast {v | (view v).isIdle = true} (chooseVoice key view) := by
  obtain ⟨n, hn, hleast⟩ := exists_isLeast_lowestVoice h
  rw [chooseVoice, retriggerVoice_eq, lowestVoice_eq_none hsounding, idleVoice, hn]
  exact hleast

/-- The largest age is the age of some voice (R195). -/
theorem exists_age_eq_maxAge (view : VoiceIx → VoiceView) : ∃ v, (view v).age.toNat = maxAge view := by
  by_contra h
  have ne (v : VoiceIx) : (view v).age.toNat ≠ maxAge view := fun hv => h ⟨v, hv⟩
  have h0 := ne 0; have h1 := ne 1; have h2 := ne 2; have h3 := ne 3
  unfold maxAge at h0 h1 h2 h3
  omega

theorem oldestVoice_isLeast (view : VoiceIx → VoiceView) :
    IsLeast {v | (view v).age.toNat = maxAge view} (oldestVoice view) := by
  obtain ⟨n, hn, hleast⟩ := exists_isLeast_lowestVoice (p := fun v => (view v).age.toNat == maxAge view)
    (by simpa using exists_age_eq_maxAge view)
  rw [oldestVoice, hn]
  simpa using hleast

/-- Step 3 decides where every voice sounds, none of them the key (R195). -/
theorem chooseVoice_of_busy (hsounding : ¬∃ v, (view v).sounds key = true) (hidle : ¬∃ v, (view v).isIdle = true) :
    chooseVoice key view = oldestVoice view := by
  rw [chooseVoice, retriggerVoice_eq, lowestVoice_eq_none hsounding, idleVoice, lowestVoice_eq_none hidle]
  rfl

/-- Settles O55: each step in turn decides, or leaves the choice to the next. -/
theorem allocatorTriesTheThreeSteps : Obligations.AllocatorTriesTheThreeSteps := by
  intro key view
  simp only [← VoiceView.isIdle_iff, ← VoiceView.sounds_iff]
  refine ⟨chooseVoice_of_sounding, chooseVoice_of_idle, fun hsounding hidle => ?_⟩
  rw [chooseVoice_of_busy hsounding hidle]
  obtain ⟨hage, hlowest⟩ := oldestVoice_isLeast view
  constructor
  · intro v
    exact (age_le_maxAge view v).trans_eq hage.symm
  · intro v hv
    exact hlowest ((congrArg BitVec.toNat hv).trans hage)

end

/-! ### An assignment (R192, R196) -/

/-- What the allocator reads of a voice tells whether the voice is idle. -/
theorem view_isIdle (s : State) (v : VoiceIx) : (s.view v).isIdle = (s.voice v).isIdle := by
  have stage : (s.view v).stage = 0 ↔ (s.voice v).stage = .idle := reg_stage_eq (g := .idle)
  have env : (s.view v).env = (s.voice v).env := rfl
  rw [Bool.eq_iff_iff, VoiceView.isIdle_iff, stage, env]
  simp [Voice.isIdle]

theorem view_sounds (s : State) (v : VoiceIx) :
    (s.view v).sounds key = true ↔ (s.voice v).isIdle = false ∧ (s.voice v).key = key := by
  have holds : (s.view v).key = key.setWidth 16 ↔ (s.voice v).key = key := readReg_key_eq
  simp [VoiceView.sounds, holds, view_isIdle, and_comm]

/-- With one voice per sounding key, a voice that sounds the key is the one the allocator chooses for it. -/
theorem State.oneVoicePerKey.eq_chooseVoice (h : s.oneVoicePerKey) {v : VoiceIx} (hv : (s.voice v).isIdle = false)
    (hkey : (s.voice v).key = key) : v = chooseVoice key s.view := by
  obtain ⟨hchosen, -⟩ := chooseVoice_of_sounding (view := s.view) ⟨v, (view_sounds s v).mpr ⟨hv, hkey⟩⟩
  obtain ⟨hn, hnkey⟩ := (view_sounds s _).mp hchosen
  exact h v _ hv hn (hkey.trans hnkey.symm)

/-- A voice may be given a key that no other voice sounds. -/
theorem State.oneVoicePerKey.assign (h : s.oneVoicePerKey)
    (hsole : ∀ v, (s.voice v).isIdle = false → (s.voice v).key = key → v = n)
    (hkey : (t.voice n).key = key) (hothers : ∀ v, v ≠ n → t.voice v = s.voice v) : t.oneVoicePerKey := by
  have other {v : VoiceIx} (hv : v ≠ n) (hidle : (t.voice v).isIdle = false) : (t.voice v).key ≠ key := by
    rw [hothers v hv] at hidle ⊢
    exact fun hk => hv (hsole v hidle hk)
  intro v w hv hw hvw
  by_cases hvn : v = n <;> by_cases hwn : w = n
  · exact hvn.trans hwn.symm
  · subst hvn
    exact absurd (hvw.symm.trans hkey) (other hwn hw)
  · subst hwn
    exact absurd (hvw.trans hkey) (other hvn hv)
  · rw [hothers v hvn, hothers w hwn] at hvw
    rw [hothers v hvn] at hv
    rw [hothers w hwn] at hw
    exact h v w hv hw hvw

/-- Commands without a SYNC finish one after another, accepted or refused, and leave every voice that none of them may write. -/
theorem execSeq_voice_kept (is rest : List Instr) (hsync : .sync ∉ is) (s : State) :
    ∃ t, execSeq (is ++ rest) s = execSeq rest t ∧
      ∀ v, (∀ i ∈ is, ∀ r, mayWrite i v r = false) → t.voice v = s.voice v := by
  induction is generalizing s with
  | nil => exact ⟨s, rfl, fun _ _ => rfl⟩
  | cons i is ih =>
    obtain ⟨hi, his⟩ := not_or.mp (List.mem_cons.not.mp hsync)
    obtain ⟨u, hx⟩ := ExecNext.exists_next i s
    have hheld : u.held = false := by
      rw [← Bool.not_eq_true, held_of_exec hx.exec_eq]
      exact fun ⟨h, _⟩ => hi h.symm
    obtain ⟨t, hrun, ht⟩ := ih his u
    refine ⟨t, (execSeq_cons _ hx.exec_eq hheld).trans hrun, fun v hv => ?_⟩
    obtain ⟨hfirst, hlater⟩ := List.forall_mem_cons.mp hv
    exact (ht v hlater).trans (Voice.ext_readReg fun r => hx.reg_eq_of_not_mayWrite (hfirst r))

/-- WR may write no register of another voice (R91). -/
theorem mayWrite_wr_of_ne (r : RegNum) (q : VReg) (imm : U16) {v w : VoiceIx} (h : v ≠ w) :
    mayWrite (.wr w r imm) v q = false := by
  unfold mayWrite
  simp [h.symm]

/-- NOTEON gives its voice the key and leaves the other voices, whether or not its AMPBASE operand is refused (R91, R101). -/
theorem execSeq_noteOn_voice (s : State) (n : VoiceIx) (key : U8) (p : VoiceParams) :
    ∃ t, execSeq (noteOn n key p) s = .next t ∧ (t.voice n).key = key ∧ ∀ v, v ≠ n → t.voice v = s.voice v := by
  have hsync : .sync ∉ loadVoice n p := by simp [loadVoice_eq, writeInstr]
  obtain ⟨u, hrun, hu⟩ := execSeq_voice_kept (loadVoice n p) [.kon n key] hsync s
  refine ⟨_, hrun.trans (execSeq_cons [] (ExecNext.kon u n key).exec_eq (finish_held ..)), ?_, fun v hv => ?_⟩
  · rw [voice_finish, voice_setVoice_self]
    rfl
  · have hload : ∀ i ∈ loadVoice n p, ∀ r, mayWrite i v r = false := by
      intro i hi r
      obtain ⟨q, -, rfl⟩ := List.mem_map.mp (loadVoice_eq n p ▸ hi)
      exact mayWrite_wr_of_ne _ r _ hv
    rw [voice_finish, voice_setVoice_of_ne _ _ hv, hu v hload]

/-- Settles O57: no voice but the chosen one sounds the key, and NOTEON leaves the others. -/
theorem allocationKeepsOneVoicePerKey : Obligations.AllocationKeepsOneVoicePerKey := by
  intro s key p h
  obtain ⟨t, hrun, hkey, hothers⟩ := execSeq_noteOn_voice s (chooseVoice key s.view) key p
  exact ⟨t, hrun, h.assign (fun _ => h.eq_chooseVoice) hkey hothers⟩

end Sys2Proof.Machine
end

section
/-! The key translator and the instrument switch of the reference host (spec/47_host_reference.md R184 to R187). -/

namespace Sys2Proof.Machine

variable {tables : HostTables} {current changed : BitVec 32} {b : Fin 32} {e : KeyBinding}

/-! ### The last key change of a kind (R184, R185) -/

/-- The press event of a pair of events, or its release event. -/
def keyEvent (pressed : Bool) (events : KeyBinding × KeyBinding) : KeyBinding := if pressed then events.1 else events.2

/-- An unchanged bit, or one bound to nothing, leaves both events. -/
theorem scanBit_of_no_event (events : KeyBinding × KeyBinding) (hb : tables.keymap[b.val]? = some e)
    (h : ¬(changed.getLsbD b = true ∧ e ≠ .none)) : scanBit tables current changed events b = events := by
  obtain ⟨hlt, rfl⟩ := List.getElem?_eq_some_iff.mp hb
  by_cases hchanged : changed.getLsbD b = true
  · simp [scanBit, show tables.keymap[b.val] = .none by simpa [hchanged] using h]
  · exact if_neg hchanged

/-- A bit that changed and is bound overwrites the press event where it is set, else the release event. -/
theorem scanBit_of_event (events : KeyBinding × KeyBinding) (hb : tables.keymap[b.val]? = some e)
    (hchanged : changed.getLsbD b = true) (he : e ≠ .none) :
    scanBit tables current changed events b = if current.getLsbD b then (e, events.2) else (events.1, e) := by
  obtain ⟨hlt, rfl⟩ := List.getElem?_eq_some_iff.mp hb
  unfold scanBit
  rw [if_pos hchanged]
  split
  · next hnone => exact absurd hnone he
  · rfl

/-- A bit that changed and is bound overwrites the event of its kind; no other bit touches either event. -/
theorem keyEvent_scanBit (pressed : Bool) (events : KeyBinding × KeyBinding) (hb : tables.keymap[b.val]? = some e) :
    keyEvent pressed (scanBit tables current changed events b) =
      if changed.getLsbD b = true ∧ current.getLsbD b = pressed ∧ e ≠ .none then e else keyEvent pressed events := by
  by_cases h : changed.getLsbD b = true ∧ e ≠ .none
  · obtain ⟨hchanged, he⟩ := h
    rw [scanBit_of_event events hb hchanged he]
    cases pressed <;> cases current.getLsbD b <;> simp [keyEvent, hchanged, he]
  · rw [scanBit_of_no_event events hb h, if_neg fun ⟨hchanged, _, he⟩ => h ⟨hchanged, he⟩]

/-- Bits that did not change that way, or are bound to nothing, leave the event. -/
theorem keyEvent_foldl_scanBit {pressed : Bool} {bits : List (Fin 32)} (events : KeyBinding × KeyBinding)
    (h : ∀ c ∈ bits, changed.getLsbD c = true → current.getLsbD c = pressed → tables.keymap[c.val]? = some .none) :
    keyEvent pressed (bits.foldl (scanBit tables current changed) events) = keyEvent pressed events := by
  induction bits generalizing events with
  | nil => rfl
  | cons c bits ih =>
    obtain ⟨hc, hbits⟩ := List.forall_mem_cons.mp h
    have hlt : c.val < tables.keymap.length := c.isLt.trans_eq tables.keymap_length.symm
    have he := List.getElem?_eq_getElem hlt
    rw [List.foldl_cons, ih _ hbits, keyEvent_scanBit pressed events he, if_neg]
    rintro ⟨hchanged, hcurrent, hne⟩
    exact hne (Option.some.inj (he.symm.trans (hc hchanged hcurrent)))

/-- The last bound bit that changed to pressed gives the press event, the last that changed to released the release event. -/
theorem keyEvent_translateKeys {pressed : Bool} {before after : List (Fin 32)} (hscan : tables.scanOrder = before ++ b :: after)
    (hchanged : changed.getLsbD b = true) (hb : tables.keymap[b.val]? = some e) (he : e ≠ .none)
    (hcurrent : current.getLsbD b = pressed)
    (hafter : ∀ c ∈ after, changed.getLsbD c = true → current.getLsbD c = pressed → tables.keymap[c.val]? = some .none) :
    keyEvent pressed (translateKeys tables current changed) = e := by
  rw [translateKeys, hscan, List.foldl_append, List.foldl_cons, keyEvent_foldl_scanBit _ hafter,
    keyEvent_scanBit pressed _ hb, if_pos ⟨hchanged, hcurrent, he⟩]

/-- Settles O58, for presses and for releases. -/
theorem lastKeyChangeWins : Obligations.LastKeyChangeWins :=
  fun _ _ _ _ _ _ _ hscan hchanged hb he =>
    ⟨keyEvent_translateKeys (pressed := true) hscan hchanged hb he,
      keyEvent_translateKeys (pressed := false) hscan hchanged hb he⟩

/-! ### The instrument index (R186, R187) -/

theorem resolveInstrument_of_select {h : RefHost} (hp : h.pressed = .instrumentSelect) :
    (h.resolveInstrument tables).instrument = h.instrument + 1 ∧
      (h.resolveInstrument tables).pressed = .logicalKey tables.refKey := by
  simp [RefHost.resolveInstrument, hp, remapSelect]

theorem resolveInstrument_of_ne {h : RefHost} (hp : h.pressed ≠ .instrumentSelect) :
    (h.resolveInstrument tables).instrument = h.instrument := if_neg hp

/-- The host after the instrument-select sentinel was pressed and resolved once. -/
def RefHost.select (tables : HostTables) (h : RefHost) : RefHost :=
  ({ h with pressed := .instrumentSelect } : RefHost).resolveInstrument tables

/-- Pressing the sentinel again and again counts the index on. -/
theorem instrument_iterate_select (tables : HostTables) (k : Nat) (h : RefHost) :
    ((RefHost.select tables)^[k] h).instrument = (· + 1)^[k] h.instrument :=
  Function.Semiconj.iterate_right (f := RefHost.instrument) (fun _ => (resolveInstrument_of_select rfl).1) k h

/-- The index counts modulo 12 (R187). -/
theorem add_one_iterate_twelve : ∀ i : Fin 12, (· + 1)^[12] i = i := by decide

/-- Settles O59. -/
theorem instrumentIndexWrapsAtTwelve : Obligations.InstrumentIndexWrapsAtTwelve := by
  intro tables h
  refine ⟨fun hp => ?selected, resolveInstrument_of_ne, ?twelve⟩
  case selected =>
    obtain ⟨hinstrument, hpressed⟩ := resolveInstrument_of_select (tables := tables) hp
    exact ⟨by rw [hinstrument, Fin.val_add]; rfl, hpressed⟩
  case twelve => exact (instrument_iterate_select tables 12 h).trans (add_one_iterate_twelve h.instrument)

end Sys2Proof.Machine
end

section
/-! The error record across a step (spec/60_exceptions.md R211, R221), and the effect of a boundary event (R216). -/

namespace Sys2Proof.Machine

variable {s t : State} {i : Instr}

/-! ### The error record is sticky (R211) -/

/-- Where an error is recorded, `raise CmdError` drops the later one. -/
theorem raiseCmdError_errorRecord_of_err (h : s.err = true) (c : CmdError) :
    (s.raiseCmdError c).err = true ∧ (s.raiseCmdError c).errcode = s.errcode :=
  ⟨raiseCmdError_err s c, (raiseCmdError_errcode s c).trans (if_pos h)⟩

/-- No command clears an error record, a refused one included. -/
theorem ExecNext.errorRecord_of_err (hx : ExecNext i s t) (h : s.err = true) :
    t.err = true ∧ t.errcode = s.errcode := by
  obtain ⟨herr, hcode⟩ | ⟨c, rfl⟩ := hx.errorRecord_cases
  · exact ⟨herr.trans h, hcode⟩
  · exact raiseCmdError_errorRecord_of_err h c

/-- Settles O17, by the cases of a step: a boundary or an idle turn leaves the record, an illegal word is one more error
that is dropped, and no command clears the record. -/
theorem onlyResetClearsTheErrorRecord : Obligations.OnlyResetClearsTheErrorRecord := by
  intro s t h hreset herr
  cases step_next_cases h with
  | boundary | idle => exact ⟨herr, rfl⟩
  | reset hs => exact absurd hs (hreset _)
  | illegal => exact raiseCmdError_errorRecord_of_err (s := s.turnTaken) herr _
  | command _ _ _ hx => exact hx.errorRecord_of_err herr

/-! ### A boundary event (R216) -/

/-- Settles O15: the timer's turn is `State.boundary` on the state without that turn. -/
theorem boundaryTurnSetsOnlySdue : Obligations.BoundaryTurnSetsOnlySdue := by
  intro s ts h
  calc step s = .next s.turnTaken.boundary := (StepNext.boundary h).step_eq
    _ = .next { s with sdue := true, schedule := ts } := by rw [turnTaken_of_schedule_cons h, State.boundary]

end Sys2Proof.Machine
end

section
/-! A reset event (spec/70_reset_and_hazards.md R240, R242), that every step has a result, and the registers each command may write
(spec/10_state.md R21 to R40). -/

namespace Sys2Proof.Machine

/-! ### A reset event (R240) -/

theorem reg_resetEvent (s : State) (v : VoiceIx) (r : VReg) : s.resetEvent.reg v r = if r = .key then 0xFF else 0 := by
  rw [State.reg, voice_resetEvent, readReg_reset]

/-- A held SYNC is the command in progress, so a reset event drops it from the stream (R46, R240). -/
theorem resetEvent_cmds_of_held {s : State} {w : CmdWord} {rest : List CmdWord} (hheld : s.held = true) (hc : s.cmds = w :: rest) :
    s.resetEvent.cmds = rest := by
  rw [resetEvent_cmds, if_pos hheld, hc, List.tail_cons]

/-- With no command in progress, a reset event leaves the stream (R240; the model's log entry 5). -/
theorem resetEvent_cmds_of_not_held {s : State} (h : s.held = false) : s.resetEvent.cmds = s.cmds := by
  rw [resetEvent_cmds, h, if_neg Bool.false_ne_true]

/-- Settles O2: the platform's turn is `State.resetEvent` on the state without that turn. -/
theorem resetEventRestoresEveryRegister : Obligations.ResetEventRestoresEveryRegister := by
  intro s ts h
  have hschedule : s.turnTaken.resetEvent.schedule = ts := by
    rw [resetEvent_schedule, turnTaken_schedule, h, List.tail_cons]
  exact ⟨s.turnTaken.resetEvent, (StepNext.reset h).step_eq, reg_resetEvent s.turnTaken, (wrapu_unsigned s.cfg.outMid).symm,
    rfl, rfl, rfl, rfl, rfl, hschedule, rfl, fun _ _ => resetEvent_cmds_of_held (s := s.turnTaken),
    resetEvent_cmds_of_not_held (s := s.turnTaken)⟩

/-! ### Every step has a result (R210, R211) -/

/-- Settles O6: one of the cases of a step applies to every state, and each answers a next state. -/
theorem everyStepAnswersNext : Obligations.EveryStepAnswersNext := by
  intro s
  obtain ⟨t, ht⟩ := StepNext.exists_next s
  exact ⟨t, ht.step_eq⟩

/-! ### The registers a command may write (R21 to R40) -/

/-- Settles O20, by the frame of each case of `exec`. -/
theorem commandsWriteOnlyTheirRegisters : Obligations.CommandsWriteOnlyTheirRegisters :=
  fun _ _ _ _ _ h hkept => (exec_next_cases h).reg_eq_of_not_mayWrite hkept

end Sys2Proof.Machine
end
